-- ==== Sys2Proof/Word.lean ====
section
/-! DEFINITION. The two widths of GF256-CORE: the data byte and the host register-space offset. -/

namespace Sys2Proof

/-- A `u8`: a field element, a register, a buffer entry, an opcode (00_scope.md R6 FIELD_BITS = DATA_BITS = 8, R8).
Bit i is the coefficient of x^i (R12). -/
abbrev Byte := BitVec 8

/-- An offset of the host register space (00_scope.md R6 OFFSET_BITS = 10; 20_memory.md R50). -/
abbrev Offset := BitVec 10

end Sys2Proof
end

