-- ==== Sys2Proof/Syntax.lean ====
section
/-! DEFINITION. The commands: one constructor per row of spec/opcode_table.json. -/

namespace Sys2Proof

/-- A command of the block (30_encoding.md R71, R73). No command has an operand field (R70, R72). The five reserved rows
keep the whole opcode byte, which PENDING holds (log 14). -/
inductive Instr where
  /-- OPC 0x00 (40_field.md R91). -/
  | nop
  /-- OPC 0x01 (40_field.md R99). -/
  | add
  /-- OPC 0x02 (40_field.md R100). -/
  | sub
  /-- OPC 0x03 (40_field.md R101). -/
  | mul
  /-- OPC 0x04 (40_field.md R102). -/
  | div
  /-- OPC 0x05 (40_field.md R103). -/
  | deg
  /-- OPC 0x06 (41_polynomial.md R121). -/
  | eval
  /-- OPC 0x07 (41_polynomial.md R123). -/
  | interp
  /-- Row 0x08/0xF8: OPC 0x08 to 0x0F, reserved (30_encoding.md R73). -/
  | reserved08 (opc : Byte)
  /-- Row 0x10/0xF0: OPC 0x10 to 0x1F, reserved. -/
  | reserved10 (opc : Byte)
  /-- Row 0x20/0xE0: OPC 0x20 to 0x3F, reserved. -/
  | reserved20 (opc : Byte)
  /-- Row 0x40/0xC0: OPC 0x40 to 0x7F, reserved. -/
  | reserved40 (opc : Byte)
  /-- Row 0x80/0x80: OPC 0x80 to 0xFF, reserved. -/
  | reserved80 (opc : Byte)
deriving DecidableEq, Repr

end Sys2Proof
end

