-- ==== Sys2Proof/WellFormed.lean ====
section
/-! DEFINITION. Which terms of `Instr` are commands of the block. -/

namespace Sys2Proof

/-- A reserved command carries an opcode of its own row (match and mask of 30_encoding.md R73); the eight named commands
have no field to check (R70). -/
def Instr.wf : Instr → Bool
  | .nop => true
  | .add => true
  | .sub => true
  | .mul => true
  | .div => true
  | .deg => true
  | .eval => true
  | .interp => true
  | .reserved08 opc => opc &&& 0xF8#8 == 0x08#8
  | .reserved10 opc => opc &&& 0xF0#8 == 0x10#8
  | .reserved20 opc => opc &&& 0xE0#8 == 0x20#8
  | .reserved40 opc => opc &&& 0xC0#8 == 0x40#8
  | .reserved80 opc => opc &&& 0x80#8 == 0x80#8

end Sys2Proof
end

