-- ==== Sys2Proof/Decode.lean ====
section
/-! DEFINITION. The decoder, from the match and mask rows of the opcode table (30_encoding.md R70, R71, R73), and the
encoder. -/

namespace Sys2Proof

/-- Why bytes are no command. -/
inductive DecodeError where
  /-- No row of the table covers the byte. R74 says this never happens, and an obligation states it. -/
  | noRow
  /-- The command is not one byte long; CMD8 is the only format (30_encoding.md R70). -/
  | notOneByte
deriving DecidableEq, Repr

/-- One row of the opcode table: it covers the bytes that equal `pattern` under `mask`. -/
structure OpcodeRow where
  mnemonic : String
  mask : Byte
  pattern : Byte
  instr : Byte → Instr

/-- The row covers this opcode. -/
def OpcodeRow.covers (row : OpcodeRow) (opc : Byte) : Bool := opc &&& row.mask == row.pattern

/-- The opcode table (30_encoding.md R71, and R73 for the five reserved rows). -/
def opcodeRows : List OpcodeRow :=
  [ ⟨"NOP", 0xFF#8, 0x00#8, fun _ => .nop⟩,
    ⟨"ADD", 0xFF#8, 0x01#8, fun _ => .add⟩,
    ⟨"SUB", 0xFF#8, 0x02#8, fun _ => .sub⟩,
    ⟨"MUL", 0xFF#8, 0x03#8, fun _ => .mul⟩,
    ⟨"DIV", 0xFF#8, 0x04#8, fun _ => .div⟩,
    ⟨"DEG", 0xFF#8, 0x05#8, fun _ => .deg⟩,
    ⟨"EVAL", 0xFF#8, 0x06#8, fun _ => .eval⟩,
    ⟨"INTERP", 0xFF#8, 0x07#8, fun _ => .interp⟩,
    ⟨"reserved", 0xF8#8, 0x08#8, .reserved08⟩,
    ⟨"reserved", 0xF0#8, 0x10#8, .reserved10⟩,
    ⟨"reserved", 0xE0#8, 0x20#8, .reserved20⟩,
    ⟨"reserved", 0xC0#8, 0x40#8, .reserved40⟩,
    ⟨"reserved", 0x80#8, 0x80#8, .reserved80⟩ ]

/-- The command an opcode byte selects (30_encoding.md R71, R74). -/
def decode (opc : Byte) : Except DecodeError Instr :=
  match opcodeRows.find? (fun row => row.covers opc) with
  | some row => .ok (row.instr opc)
  | none => .error .noRow

/-- Decoding any bytes: a command is exactly one byte, and no length logic is needed (30_encoding.md R70). -/
def decodeBytes : List Byte → Except DecodeError Instr
  | [opc] => decode opc
  | [] => .error .notOneByte
  | _ :: _ :: _ => .error .notOneByte

/-- The opcode byte of a well-formed command (30_encoding.md R71, R73). -/
def encode : Instr → Byte
  | .nop => 0x00#8
  | .add => 0x01#8
  | .sub => 0x02#8
  | .mul => 0x03#8
  | .div => 0x04#8
  | .deg => 0x05#8
  | .eval => 0x06#8
  | .interp => 0x07#8
  | .reserved08 opc => opc
  | .reserved10 opc => opc
  | .reserved20 opc => opc
  | .reserved40 opc => opc
  | .reserved80 opc => opc

/-- The bytes of a word numbered as spec/opcode_table.json numbers it, the first byte from bits 7:0. -/
def tableBytes (nbits w : Nat) : List Byte :=
  (List.range (nbits / 8)).map fun k => BitVec.ofNat 8 (w / 2 ^ (8 * k))

/-- What the decoder reads from an instruction whose bits are `w`, numbered as the opcode table numbers them. -/
def decodeTableWord (nbits w : Nat) : Option Instr :=
  match decodeBytes (tableBytes nbits w) with
  | .ok i => some i
  | .error _ => none

end Sys2Proof
end

