-- ==== Sys2Proof/Config.lean ====
section
/-! DEFINITION. What an implementation of GF256-CORE fixes (00_scope.md R6), and the free values: constants with no body
for the parameters the spec calls OPEN, so that no proof can see which value they have. -/

namespace Sys2Proof.Config

/-- ID_VALUE, ASCII 'G' (00_scope.md R6; 10_state.md R21). -/
def idValue : Byte := 0x47#8

/-- REV_VALUE, command set revision 1 (00_scope.md R6; 10_state.md R22). -/
def revValue : Byte := 0x01#8

/-- CMAX = PMAX: entries of COEF and of each of PX and PY (00_scope.md R6, R7). -/
def bufferEntries : Nat := 255

/-- Offset of COEF[0] (20_memory.md R51). -/
def coefBase : Nat := 0x100

/-- Offset of PX[0] (20_memory.md R51). -/
def pxBase : Nat := 0x200

/-- Offset of PY[0] (20_memory.md R51). -/
def pyBase : Nat := 0x300

/-- FREE VALUE, OPEN parameter BASE: the platform address of offset 0 (00_scope.md R6; 20_memory.md R51; log 6). -/
opaque base : Nat

/-- FREE VALUE, OPEN parameter LOG0: the content of LOG ROM entry 0 (00_scope.md R6; 10_state.md R36; log 5). -/
opaque log0 : Byte

/-- FREE VALUE, OPEN parameter RESET_BUF: `resetBuf n off` is what the buffer entry at host offset `off` holds after the
n-th reset until the host writes it (00_scope.md R6; 10_state.md R44, R45; log 3). -/
opaque resetBuf : Nat → Nat → Byte

/-- FREE VALUE of the model: what a host temporary that was never assigned holds (30_encoding.md R75 is silent; log 7). -/
opaque freeTemp : Nat → Byte

end Sys2Proof.Config
end

