-- ==== Sys2Proof/Machine/State.lean ====
section
/-! DEFINITION. The state of the block, as plain data, with the two outside parties that act on it (the host and the
platform's schedule); why a step can stop; and the state after reset. -/

namespace Sys2Proof.Machine

/-- The unit's phase; in BUSY it holds PENDING, the accepted opcode (10_state.md R41). -/
inductive Phase where
  | idle
  | busy (pending : Byte)
deriving DecidableEq, Repr

/-- The error codes a command can raise (60_exceptions.md R140). -/
inductive ErrorCode where
  | illegal
  | divzero
deriving DecidableEq, Repr

/-- What a host write carries: a byte, or the value of a host temporary (30_encoding.md R75). -/
inductive Source where
  | lit (v : Byte)
  | temp (t : Nat)
deriving DecidableEq, Repr

/-- A statement of a host program (30_encoding.md R75). -/
inductive Stmt where
  /-- `wr OFF, V` -/
  | wr (off : Offset) (v : Source)
  /-- `rd OFF -> t` -/
  | rd (off : Offset) (t : Nat)
  /-- `L:` -/
  | label (l : Nat)
  /-- `bnz t[b], L` -/
  | bnz (t : Nat) (bit : Fin 8) (l : Nat)
deriving DecidableEq, Repr

/-- The host agent, outside the block: its program, the statement it runs next, and its temporaries (30_encoding.md R75,
R78). The block itself has no program counter (10_state.md R39). -/
structure HostAgent where
  prog : List Stmt
  pos : Nat
  temps : List Host.Cell
deriving DecidableEq, Repr

/-- What happens next: an agent moves, or the platform does something (20_memory.md R60, R61; 70_reset_and_hazards.md R160;
60_exceptions.md R159; log 1). -/
inductive Event where
  /-- The host runs its next statement. -/
  | hostMoves
  /-- The unit takes its completion step, if it is enabled. -/
  | unitMoves
  /-- The platform resets the block. -/
  | reset
  /-- R159 (a): a host access wider than one byte, or a burst. -/
  | wideAccess
  /-- R159 (b): an access of a bus master the platform does not serialise. -/
  | unserialisedMaster
  /-- R159 (c): a reset asserted in a way the platform does not define. -/
  | undefinedReset
deriving DecidableEq, Repr

/-- The machine. Fields `a` to `mem` are the block's own state (10_state.md R20, R41, R44); `resets`, `host` and `events` are
the model's (log 1, 3, 7). -/
structure State where
  /-- A (10_state.md R34). -/
  a : Byte
  /-- B (10_state.md R34). -/
  b : Byte
  /-- R (10_state.md R35). -/
  r : Byte
  /-- LEN (10_state.md R31). -/
  len : Byte
  /-- NPTS (10_state.md R33). -/
  npts : Byte
  /-- STATUS (10_state.md R25). -/
  status : Byte
  /-- The phase, with PENDING (10_state.md R41). -/
  phase : Phase
  /-- The entries of COEF, PX and PY the host has written since the last reset, by host offset, offsets strictly rising
  (10_state.md R30, R32, R45; log 4). -/
  mem : List Host.Cell
  /-- MODEL: how many resets lie behind, selecting the RESET_BUF draw in force (10_state.md R45; log 3). -/
  resets : Nat
  /-- MODEL: the host agent (log 7). -/
  host : HostAgent
  /-- MODEL: the schedule, soonest event first (log 1). -/
  events : List Event
deriving DecidableEq, Repr

/-- Why a run stops with a fault. The block itself never faults: ILLEGAL and DIVZERO are next states (60_exceptions.md
R159). -/
inductive Fault where
  /-- Raised by the host agent's `bnz` whose label stands nowhere in its program, to which 30_encoding.md R75 gives no
  meaning. Safe: the model stops (log 8). -/
  | missingLabel
deriving DecidableEq, Repr

/-- Why a step is refused. -/
inductive Refusal where
  /-- An instruction without a meaning in this model. No arm of `exec` answers it. Safe. -/
  | notModelled (mnemonic : String)
  /-- Raised by the unit on an opcode that no row covers; 30_encoding.md R74 says there is none. Safe. -/
  | undecodableOpcode
  /-- Raised by the event `wideAccess` (60_exceptions.md R159 (a); 20_memory.md R53). Safe. -/
  | wideAccess
  /-- Raised by the event `unserialisedMaster` (60_exceptions.md R159 (b); 20_memory.md R61). Safe. -/
  | unserialisedMaster
  /-- Raised by the event `undefinedReset` (60_exceptions.md R159 (c)). Safe. -/
  | undefinedReset
deriving DecidableEq, Repr

/-- The state after reset (10_state.md R44). No buffer entry is listed, so each reads as its RESET_BUF draw (R45; log 3).
The host has no program and the schedule is empty: DESIGN CHOICE, log 1 and 7. -/
def State.reset : State where
  a := 0x00#8
  b := 0x00#8
  r := 0x00#8
  len := 0x00#8
  npts := 0x00#8
  status := 0x00#8
  phase := .idle
  mem := []
  resets := 0
  host := ⟨[], 0, []⟩
  events := []

end Sys2Proof.Machine
end

