-- ==== Sys2Proof/Machine/Flags.lean ====
section
/-! DEFINITION. STATUS: its fields, and the three values the block writes to it (10_state.md R24 to R29; 60_exceptions.md
R142, R143). -/

namespace Sys2Proof.Machine

namespace Status

/-- STATUS.BUSY, bit 0 (10_state.md R26). -/
def busy (st : Byte) : Bool := st.getLsbD 0

/-- STATUS.DONE, bit 1 (10_state.md R27). -/
def done (st : Byte) : Bool := st.getLsbD 1

/-- STATUS.ERR, bit 2 (10_state.md R28). -/
def err (st : Byte) : Bool := st.getLsbD 2

/-- STATUS.ECODE, bits 5:3 (10_state.md R28). -/
def ecode (st : Byte) : BitVec 3 := st.extractLsb' 3 3

/-- STATUS.WOVR, bit 6 (10_state.md R29). -/
def wovr (st : Byte) : Bool := st.getLsbD 6

/-- STATUS bit 7, reserved (10_state.md R25). -/
def bit7 (st : Byte) : Bool := st.getLsbD 7

/-- STATUS with one bit written. -/
def setBit (st : Byte) (i : Nat) (v : Bool) : Byte :=
  if v then st ||| (0x01#8 <<< i) else st &&& ~~~(0x01#8 <<< i)

/-- STATUS with ECODE written. -/
def setEcode (st : Byte) (code : BitVec 3) : Byte :=
  (st &&& 0xC7#8) ||| (code.setWidth 8 <<< 3)

/-- What a host read of STATUS returns: bit 7 is hardwired to 0 (10_state.md R25; log 10). -/
def visible (st : Byte) : Byte := st &&& 0x7F#8

/-- Acceptance: BUSY = 1 and every other field 0 (10_state.md R24). -/
def accepted : Byte := 0x01#8

/-- Successful completion: BUSY, DONE, ERR and ECODE are written, WOVR keeps its value (60_exceptions.md R142). -/
def completed (st : Byte) : Byte :=
  setEcode (setBit (setBit (setBit st 0 false) 1 true) 2 false) 0#3

/-- Error completion: BUSY, DONE, ERR and ECODE are written, WOVR keeps its value (60_exceptions.md R143). -/
def failed (st : Byte) (code : BitVec 3) : Byte :=
  setEcode (setBit (setBit (setBit st 0 false) 1 false) 2 true) code

/-- A host write dropped while BUSY: WOVR is set, nothing else changes (20_memory.md R55). -/
def overrun (st : Byte) : Byte := setBit st 6 true

end Status

/-- The ECODE value of an error (60_exceptions.md R140). -/
def errorBits : ErrorCode → BitVec 3
  | .illegal => 1#3
  | .divzero => 2#3

end Sys2Proof.Machine
end

