-- ==== Sys2Proof/Machine/Ops.lean ====
section
/-! DEFINITION. The shared operations: the buffers' memory, the host register space, acceptance, the two completions, and
reset. -/

namespace Sys2Proof.Machine

/-! ## Cells by address -/

/-- What is listed at an address; `none` where nothing is, which for the buffers says that the host has not written the
entry since the last reset (10_state.md R45; log 4). -/
def Memory.lookup : List Host.Cell → Nat → Option Byte
  | [], _ => none
  | (k, w) :: m, addr => if addr = k then some w else Memory.lookup m addr

/-- The cells after a write of one byte, in rising order of address. -/
def Memory.store : List Host.Cell → Nat → Byte → List Host.Cell
  | [], addr, v => [(addr, v)]
  | (k, w) :: m, addr, v =>
    if addr < k then (addr, v) :: (k, w) :: m
    else if addr = k then (addr, v) :: m
    else (k, w) :: Memory.store m addr v

/-- The canonical form: addresses strictly rising (so none twice). -/
abbrev Memory.wf (m : List Host.Cell) : Prop := m.Pairwise fun c d => c.1 < d.1

/-! ## The host register space (20_memory.md R50, R51) -/

/-- What stands at an offset. -/
inductive Location where
  | id
  | rev
  | cmd
  | status
  | a
  | b
  | r
  | len
  | npts
  | reserved
  /-- Entry `i` of COEF. -/
  | coef (i : Nat)
  /-- Entry `i` of PX. -/
  | px (i : Nat)
  /-- Entry `i` of PY. -/
  | py (i : Nat)
deriving DecidableEq, Repr

/-- The named registers, at their offsets 0x000 to 0x008 (20_memory.md R51). -/
def namedRegisters : List Location := [.id, .rev, .cmd, .status, .a, .b, .r, .len, .npts]

/-- The address map (20_memory.md R51, R52). -/
def locate (off : Offset) : Location :=
  let n := off.toNat
  let i := n % 0x100
  if n < 0x100 then (namedRegisters[n]?).getD .reserved
  else if i < Config.bufferEntries then
    if n < Config.pxBase then .coef i else if n < Config.pyBase then .px i else .py i
  else .reserved

/-- The offset is one of a buffer entry (20_memory.md R51). -/
def isBufferOffset (n : Nat) : Bool :=
  0x100 ≤ n && n < 0x400 && n % 0x100 < Config.bufferEntries

/-- A buffer entry, by host offset: the byte last written, or the RESET_BUF draw of the last reset (10_state.md R45). -/
def readBuffer (s : State) (n : Nat) : Byte :=
  (Memory.lookup s.mem n).getD (Config.resetBuf s.resets n)

/-- The state after a byte is stored to a buffer entry. -/
def writeBuffer (s : State) (n : Nat) (v : Byte) : State :=
  { s with mem := Memory.store s.mem n v }

/-- `MemRead(off, 1)`, at any time whatever BUSY is (20_memory.md R54). -/
def hostRead (off : Offset) (s : State) : Byte :=
  match locate off with
  | .id => Config.idValue
  | .rev => Config.revValue
  | .cmd => 0x00#8
  | .status => Status.visible s.status
  | .a => s.a
  | .b => s.b
  | .r => s.r
  | .len => s.len
  | .npts => s.npts
  | .reserved => 0x00#8
  | .coef i => readBuffer s (Config.coefBase + i)
  | .px i => readBuffer s (Config.pxBase + i)
  | .py i => readBuffer s (Config.pyBase + i)

/-- Acceptance of a command (10_state.md R24). It also is what clears the record of the command before it
(60_exceptions.md R150). -/
def accept (opc : Byte) (s : State) : State :=
  { s with phase := .busy opc, status := Status.accepted }

/-- A write made while BUSY = 1 is dropped: only WOVR changes (20_memory.md R55). -/
def dropWrite (s : State) : State :=
  { s with status := Status.overrun s.status }

/-- A write made while BUSY = 0 (20_memory.md R55, R52). -/
def idleWrite (off : Offset) (v : Byte) (s : State) : State :=
  match locate off with
  | .id => s
  | .rev => s
  | .cmd => accept v s
  | .status => s
  | .a => { s with a := v }
  | .b => { s with b := v }
  | .r => s
  | .len => { s with len := v }
  | .npts => { s with npts := v }
  | .reserved => s
  | .coef i => writeBuffer s (Config.coefBase + i) v
  | .px i => writeBuffer s (Config.pxBase + i) v
  | .py i => writeBuffer s (Config.pyBase + i) v

/-- `MemWrite(off, 1, v)` (20_memory.md R55). -/
def hostWrite (off : Offset) (v : Byte) (s : State) : State :=
  if Status.busy s.status then dropWrite s else idleWrite off v s

/-- The platform address of an offset (20_memory.md R50 (a)). -/
def platformAddress (off : Offset) : Nat := Config.base + off.toNat

/-- The offset a platform address reaches; none where the platform decides (20_memory.md R51). -/
def offsetAt (addr : Nat) : Option Offset :=
  if Config.base ≤ addr ∧ addr < Config.base + 0x400 then some (BitVec.ofNat 10 (addr - Config.base)) else none

/-! ## How a command ends -/

/-- `complete(v)` (60_exceptions.md R142). -/
def complete (v : Byte) (s : State) : State :=
  { s with r := v, status := Status.completed s.status, phase := .idle }

/-- `raise Error(code)` (60_exceptions.md R143): the block's error entry, which changes STATUS and the phase only. There is
no handler and no return (R149, R150). -/
def raiseError (code : ErrorCode) (s : State) : State :=
  { s with status := Status.failed s.status (errorBits code), phase := .idle }

/-! ## Reset -/

/-- The platform's reset, at any time (70_reset_and_hazards.md R160, R161): the block's state is as after reset, with a new
RESET_BUF draw. The host and the schedule stand outside the block (log 13). -/
def resetBlock (s : State) : State :=
  { State.reset with resets := s.resets + 1, host := s.host, events := s.events }

end Sys2Proof.Machine
end

