-- ==== Sys2Proof/Machine/Operands.lean ====
section
/-! DEFINITION. The operands of the commands: fixed registers and buffers, never the command byte (30_encoding.md R72;
20_memory.md R59). -/

namespace Sys2Proof.Machine

/-- COEF[i] (10_state.md R30). -/
def State.coef (s : State) (i : Nat) : Byte := readBuffer s (Config.coefBase + i)

/-- PX[i] (10_state.md R32). -/
def State.px (s : State) (i : Nat) : Byte := readBuffer s (Config.pxBase + i)

/-- PY[i] (10_state.md R32). -/
def State.py (s : State) (i : Nat) : Byte := readBuffer s (Config.pyBase + i)

/-- The polynomial of DEG and EVAL: COEF[0..LEN-1], the constant term first (10_state.md R30, R31). -/
def State.coefficients (s : State) : List Byte := (List.range s.len.toNat).map s.coef

end Sys2Proof.Machine
end

