-- ==== Sys2Proof/Machine/FieldUnit.lean ====
section
/-! DEFINITION. The field unit's commands: NOP, ADD, SUB, MUL, DIV and DEG (40_field.md R91, R99 to R103). Each meaning is the
command's completion step (20_memory.md R60; log 12). -/

namespace Sys2Proof.Machine

/-- NOP (40_field.md R91). -/
def execNop (s : State) : Host.Outcome State Fault Refusal := .next (complete s.r s)

/-- ADD (40_field.md R99). -/
def execAdd (s : State) : Host.Outcome State Fault Refusal := .next (complete (gadd s.a s.b) s)

/-- SUB (40_field.md R100). -/
def execSub (s : State) : Host.Outcome State Fault Refusal := .next (complete (gsub s.a s.b) s)

/-- MUL (40_field.md R101). -/
def execMul (s : State) : Host.Outcome State Fault Refusal := .next (complete (gmul s.a s.b) s)

/-- DIV (40_field.md R102). -/
def execDiv (s : State) : Host.Outcome State Fault Refusal :=
  if s.b = 0x00#8 then .next (raiseError .divzero s) else .next (complete (gdiv s.a s.b) s)

/-- The scan of DEG from index `i` down to 1: the first index with a nonzero coefficient, or 0 (40_field.md R103). -/
def scanDegree (coef : Nat → Byte) : Nat → Nat
  | 0 => 0
  | i + 1 => if coef (i + 1) ≠ 0x00#8 then i + 1 else scanDegree coef i

/-- DEG (40_field.md R103). -/
def execDeg (s : State) : Host.Outcome State Fault Refusal :=
  .next (complete (BitVec.ofNat 8 (scanDegree s.coef (s.len.toNat - 1))) s)

end Sys2Proof.Machine
end

