-- ==== Sys2Proof/Machine/Polynomial.lean ====
section
/-! DEFINITION. The polynomial engine's commands: EVAL and INTERP (41_polynomial.md R121, R123). -/

namespace Sys2Proof.Machine

/-- Horner's recurrence, from the highest coefficient down to the constant term (41_polynomial.md R121). -/
def horner (x : Byte) (coefs : List Byte) : Byte :=
  coefs.foldr (fun c r => gadd (gmul r x) c) 0x00#8

/-- EVAL (41_polynomial.md R121). -/
def execEval (s : State) : Host.Outcome State Fault Refusal := .next (complete (horner s.a s.coefficients) s)

/-- Two of the first `n` points share an x (41_polynomial.md R123, the first loop). -/
def repeatedX (n : Nat) (px : Nat → Byte) : Bool :=
  (List.range n).any fun i => (List.range n).any fun j => i != j && px i == px j

/-- The Lagrange basis value at 0 of point `i` (41_polynomial.md R123). -/
def basisAtZero (n : Nat) (px : Nat → Byte) (i : Nat) : Byte :=
  (List.range n).foldl
    (fun basis j => if j ≠ i then gmul basis (gdiv (gsub 0x00#8 (px j)) (gsub (px i) (px j))) else basis) 0x01#8

/-- The accumulated interpolation at 0 (41_polynomial.md R123). -/
def interpolateAtZero (n : Nat) (px py : Nat → Byte) : Byte :=
  (List.range n).foldl (fun acc i => gadd acc (gmul (basisAtZero n px i) (py i))) 0x00#8

/-- INTERP (41_polynomial.md R123): a repeated x raises DIVZERO before any arithmetic. -/
def execInterp (s : State) : Host.Outcome State Fault Refusal :=
  if repeatedX s.npts.toNat s.px then .next (raiseError .divzero s)
  else .next (complete (interpolateAtZero s.npts.toNat s.px s.py) s)

end Sys2Proof.Machine
end

