-- ==== Sys2Proof/Machine/Reserved.lean ====
section
/-! DEFINITION. The reserved opcodes 0x08 to 0xFF: accepted like any other, they read no operand and end with ILLEGAL
(30_encoding.md R73; 60_exceptions.md R141). One meaning per row of the table. -/

namespace Sys2Proof.Machine

/-- OPC 0x08 to 0x0F. -/
def execReserved08 (_opc : Byte) (s : State) : Host.Outcome State Fault Refusal := .next (raiseError .illegal s)

/-- OPC 0x10 to 0x1F. -/
def execReserved10 (_opc : Byte) (s : State) : Host.Outcome State Fault Refusal := .next (raiseError .illegal s)

/-- OPC 0x20 to 0x3F. -/
def execReserved20 (_opc : Byte) (s : State) : Host.Outcome State Fault Refusal := .next (raiseError .illegal s)

/-- OPC 0x40 to 0x7F. -/
def execReserved40 (_opc : Byte) (s : State) : Host.Outcome State Fault Refusal := .next (raiseError .illegal s)

/-- OPC 0x80 to 0xFF. -/
def execReserved80 (_opc : Byte) (s : State) : Host.Outcome State Fault Refusal := .next (raiseError .illegal s)

end Sys2Proof.Machine
end

