-- ==== Sys2Proof/Machine/Dispatch.lean ====
section
/-! DEFINITION. What each command does, one arm per constructor of Instr. -/

namespace Sys2Proof.Machine

/-- The completion step of a command (20_memory.md R60). -/
def exec (i : Instr) (s : State) : Host.Outcome State Fault Refusal :=
  match i with
  | .nop => Sys2Proof.Machine.execNop s
  | .add => Sys2Proof.Machine.execAdd s
  | .sub => Sys2Proof.Machine.execSub s
  | .mul => Sys2Proof.Machine.execMul s
  | .div => Sys2Proof.Machine.execDiv s
  | .deg => Sys2Proof.Machine.execDeg s
  | .eval => Sys2Proof.Machine.execEval s
  | .interp => Sys2Proof.Machine.execInterp s
  | .reserved08 opc => Sys2Proof.Machine.execReserved08 opc s
  | .reserved10 opc => Sys2Proof.Machine.execReserved10 opc s
  | .reserved20 opc => Sys2Proof.Machine.execReserved20 opc s
  | .reserved40 opc => Sys2Proof.Machine.execReserved40 opc s
  | .reserved80 opc => Sys2Proof.Machine.execReserved80 opc s

end Sys2Proof.Machine
end

