-- ==== Sys2Proof/Machine/HostProgram.lean ====
section
/-! DEFINITION. The host agent: its statements, the pseudo-instructions of the notation, and the transaction word of listings
(30_encoding.md R75 to R78). The block sees only the reads and writes. -/

namespace Sys2Proof.Machine

/-! ## Register names as offsets (30_encoding.md R75; 20_memory.md R51) -/

namespace Off

def id : Offset := 0x000#10
def rev : Offset := 0x001#10
def cmd : Offset := 0x002#10
def status : Offset := 0x003#10
def a : Offset := 0x004#10
def b : Offset := 0x005#10
def r : Offset := 0x006#10
def len : Offset := 0x007#10
def npts : Offset := 0x008#10
def coef (i : Nat) : Offset := BitVec.ofNat 10 (Config.coefBase + i)
def px (i : Nat) : Offset := BitVec.ofNat 10 (Config.pxBase + i)
def py (i : Nat) : Offset := BitVec.ofNat 10 (Config.pyBase + i)

end Off

/-! ## Statements -/

/-- The value of a host temporary: as last assigned, else free (log 7). -/
def tempValue (temps : List Host.Cell) (t : Nat) : Byte := (Memory.lookup temps t).getD (Config.freeTemp t)

/-- The byte a write carries (30_encoding.md R75). -/
def sourceValue (temps : List Host.Cell) : Source → Byte
  | .lit v => v
  | .temp t => tempValue temps t

/-- The position of a label in a program: its first occurrence (log 8). -/
def labelPosition (l : Nat) : List Stmt → Option Nat
  | [] => none
  | st :: rest => if st = .label l then some 0 else (labelPosition l rest).map (· + 1)

/-- The host at the statement after the one it just ran. -/
def hostAdvance (s : State) : State := { s with host := { s.host with pos := s.host.pos + 1 } }

/-- The host with a temporary assigned. -/
def hostAssign (t : Nat) (v : Byte) (s : State) : State :=
  { s with host := { s.host with temps := Memory.store s.host.temps t v } }

/-- The host at another statement of its program. -/
def hostJump (pos : Nat) (s : State) : State := { s with host := { s.host with pos := pos } }

/-- One statement of the host's program (30_encoding.md R75). -/
def runStmt (st : Stmt) (s : State) : Host.Outcome State Fault Refusal :=
  match st with
  | .wr off v => .next (hostAdvance (hostWrite off (sourceValue s.host.temps v) s))
  | .rd off t => .next (hostAdvance (hostAssign t (hostRead off s) s))
  | .label _ => .next (hostAdvance s)
  | .bnz t bit l =>
    if (tempValue s.host.temps t).getLsbD bit then
      match labelPosition l s.host.prog with
      | some pos => .next (hostJump pos s)
      | none => .fault .missingLabel
    else .next (hostAdvance s)

/-- The statement the host runs next; none once it is past the end of its program. -/
def nextStmt (s : State) : Option Stmt := s.host.prog[s.host.pos]?

/-- The host's turn: its next statement, or nothing once its program has ended. -/
def hostTurn (s : State) : Host.Outcome State Fault Refusal :=
  match nextStmt s with
  | some st => runStmt st s
  | none => .next s

/-- A program whose labels are distinct and whose branches all have their label. -/
def programWf (prog : List Stmt) : Bool :=
  prog.all (fun st => match st with
    | .wr _ _ => true
    | .rd _ _ => true
    | .label l => prog.count (.label l) == 1
    | .bnz _ _ l => (labelPosition l prog).isSome)

/-! ## Pseudo-instructions (30_encoding.md R76); `l` is the fresh label, `t` the temporary. A value may be a byte or a host
temporary, as in the `wr` it expands to (R75); `setpoly` and `setpts` write their count as a byte. -/

/-- `wait` -/
def pseudoWait (l t : Nat) : List Stmt := [.label l, .rd Off.status t, .bnz t 0 l]

/-- `exec OP` -/
def pseudoExec (l t : Nat) (opc : Source) : List Stmt := .wr Off.cmd opc :: pseudoWait l t

/-- `setpoly c_0, ..., c_{n-1}`, n ≤ 255 -/
def pseudoSetpoly (coefs : List Source) : List Stmt :=
  coefs.mapIdx (fun i c => .wr (Off.coef i) c) ++ [.wr Off.len (.lit (BitVec.ofNat 8 coefs.length))]

/-- `setpts (x_0,y_0), ..., (x_{n-1},y_{n-1})`, n ≤ 255 -/
def pseudoSetpts (points : List (Source × Source)) : List Stmt :=
  (points.mapIdx fun i p => [.wr (Off.px i) p.1, .wr (Off.py i) p.2]).flatten ++
    [.wr Off.npts (.lit (BitVec.ofNat 8 points.length))]

/-- `result -> t` -/
def pseudoResult (t : Nat) : List Stmt := [.rd Off.r t]

/-! ## The transaction word of listings (30_encoding.md R77) -/

/-- One host access as listings print it: a write with its byte, or a read. -/
inductive Transaction where
  | write (off : Offset) (v : Byte)
  | read (off : Offset)
deriving DecidableEq, Repr

/-- Bit 18 = W, bits 17:8 = OFF, bits 7:0 = the byte written, 0 for a read. -/
def transactionWord : Transaction → BitVec 19
  | .write off v => 1#1 ++ off ++ v
  | .read off => 0#1 ++ off ++ 0x00#8

/-- The access a transaction word prints; none for a read with data bits set. -/
def readTransactionWord (w : BitVec 19) : Option Transaction :=
  let off := w.extractLsb' 8 10
  let v := w.extractLsb' 0 8
  if w.getLsbD 18 then some (.write off v) else if v = 0x00#8 then some (.read off) else none

end Sys2Proof.Machine
end

