-- ==== Sys2Proof/Machine/Agents.lean ====
section
/-! DEFINITION. Who moves next: the unit, the host or the platform (20_memory.md R60, R61; log 1). -/

namespace Sys2Proof.Machine

/-- The unit's turn: the completion step of the pending command, enabled only while the phase is BUSY (20_memory.md R60). -/
def unitTurn (s : State) : Host.Outcome State Fault Refusal :=
  match s.phase with
  | .idle => .next s
  | .busy opc =>
    match decode opc with
    | .ok i => exec i s
    | .error _ => .refused .undecodableOpcode

/-- What an event of the schedule does. -/
def runEvent (e : Event) (s : State) : Host.Outcome State Fault Refusal :=
  match e with
  | .hostMoves => hostTurn s
  | .unitMoves => unitTurn s
  | .reset => .next (resetBlock s)
  | .wideAccess => .refused .wideAccess
  | .unserialisedMaster => .refused .unserialisedMaster
  | .undefinedReset => .refused .undefinedReset

/-- After the schedule: a pending command completes first (weak fairness, 20_memory.md R60), then the host goes on. -/
def unscheduledTurn (s : State) : Host.Outcome State Fault Refusal :=
  match s.phase with
  | .busy _ => unitTurn s
  | .idle => hostTurn s

/-- The next turn of the interleaving (20_memory.md R61). -/
def nextTurn (s : State) : Host.Outcome State Fault Refusal :=
  match s.events with
  | [] => unscheduledTurn s
  | e :: rest => runEvent e { s with events := rest }

/-- The state in which the unit has accepted an opcode and takes its completion step next (10_state.md R24; log 2). -/
def placeCommand (opc : Byte) (s : State) : State :=
  { accept opc s with events := .unitMoves :: s.events }

end Sys2Proof.Machine
end

