-- ==== Sys2Proof/Machine/Step.lean ====
section
/-! DEFINITION. One step of the machine: one turn of the interleaving of host accesses and completion steps. -/

namespace Sys2Proof.Machine

/-- One step (20_memory.md R60, R61). -/
def step (s : State) : Host.Outcome State Fault Refusal := nextTurn s

/-- The block fetches nothing (10_state.md R39): a command comes to run by being accepted. `s` with the command of the table
word accepted, and the unit moving next (log 2). -/
def State.withFetchWord (s : State) (nbits w : Nat) : State := placeCommand (BitVec.ofNat 8 (w % 2 ^ nbits)) s

end Sys2Proof.Machine
end

