-- ==== Sys2Proof/Safety.lean ====
section
/-! DEFINITION. The terms the claims use: the invariant of the machine, the outcomes the spec writes out, and polynomials
over the field. -/

namespace Sys2Proof.Safety

open Sys2Proof.Machine

/-! ## The invariant -/

/-- What holds at reset and after every step: the cells are in canonical form and the buffers' cells are buffer entries;
STATUS.BUSY exposes the phase (10_state.md R41); and the STATUS invariants (a) to (e) of 10_state.md R43. -/
structure Inv (s : State) : Prop where
  mem_wf : Memory.wf s.mem
  mem_buffers : ∀ c ∈ s.mem, isBufferOffset c.1 = true
  temps_wf : Memory.wf s.host.temps
  busy_phase : Status.busy s.status = true ↔ s.phase ≠ .idle
  busy_quiet : Status.busy s.status = true →
    Status.done s.status = false ∧ Status.err s.status = false ∧ Status.ecode s.status = 0#3
  done_err : ¬ (Status.done s.status = true ∧ Status.err s.status = true)
  err_ecode : Status.err s.status = false ↔ Status.ecode s.status = 0#3
  ecode_known : Status.ecode s.status = 0#3 ∨ Status.ecode s.status = 1#3 ∨ Status.ecode s.status = 2#3
  bit7 : Status.bit7 s.status = false

/-! ## Turns -/

/-- The state with its next event taken off the schedule. -/
def popEvent (s : State) : State := { s with events := s.events.tail }

/-- The unit moves next: it is scheduled, or the schedule is over. -/
def UnitIsNext (s : State) : Prop := s.events = [] ∨ s.events.head? = some .unitMoves

/-- The host moves next: it is scheduled, or the schedule is over and no command is pending. -/
def HostIsNext (s : State) : Prop := s.events.head? = some .hostMoves ∨ (s.events = [] ∧ s.phase = .idle)

/-- The schedule holds turns of the two agents only: no reset, and nothing 60_exceptions.md R159 refuses. -/
def AgentsOnly (s : State) : Prop := ∀ e ∈ s.events, e = .hostMoves ∨ e = .unitMoves

/-- The operand registers, the buffers and the result are the same in both states (20_memory.md R59, R65). -/
def SameData (s t : State) : Prop :=
  s.a = t.a ∧ s.b = t.b ∧ s.len = t.len ∧ s.npts = t.npts ∧ s.r = t.r ∧ s.mem = t.mem ∧ s.resets = t.resets

/-! ## Outcomes, as the spec writes their STATUS bits -/

/-- After `complete(v)` (60_exceptions.md R142): R = v, the phase IDLE, STATUS 0x02 in its low six bits. -/
def doneWith (v : Byte) (s : State) : State :=
  { s with r := v, status := (s.status &&& 0xC0#8) ||| 0x02#8, phase := .idle }

/-- After `raise Error(ILLEGAL)` (60_exceptions.md R143): STATUS 0x0C in its low six bits. -/
def illegalIn (s : State) : State :=
  { s with status := (s.status &&& 0xC0#8) ||| 0x0C#8, phase := .idle }

/-- After `raise Error(DIVZERO)` (60_exceptions.md R143): STATUS 0x14 in its low six bits. -/
def divzeroIn (s : State) : State :=
  { s with status := (s.status &&& 0xC0#8) ||| 0x14#8, phase := .idle }

/-! ## Polynomials over the field -/

/-- x^0 = 1 and x^(i+1) = gmul(x^i, x) (41_polynomial.md R122). -/
def power (x : Byte) : Nat → Byte
  | 0 => 0x01#8
  | i + 1 => gmul (power x i) x

/-- The field sum, over i = 0..n-1, of gmul(c_i, x^i) (41_polynomial.md R122). -/
def polyValue (c : Nat → Byte) (x : Byte) : Nat → Byte
  | 0 => 0x00#8
  | n + 1 => gadd (polyValue c x n) (gmul (c n) (power x n))

/-- `d` is what the scan of 40_field.md R103 finds: every coefficient above `d` and below LEN is zero, and `d` is 0 or its own
coefficient is not. -/
def IsDegree (s : State) (d : Nat) : Prop :=
  (∀ i, d < i → i < s.len.toNat → s.coef i = 0x00#8) ∧ (d = 0 ∨ (d < s.len.toNat ∧ s.coef d ≠ 0x00#8))

/-- The first NPTS points have pairwise-distinct x (41_polynomial.md R124). -/
def DistinctX (s : State) : Prop :=
  ∀ i j, i < s.npts.toNat → j < s.npts.toNat → i ≠ j → s.px i ≠ s.px j

end Sys2Proof.Safety
end

