-- ==== Sys2Proof/Certificates/Slice0/Obligations.lean ====
section
/-! DEFINITION. What is claimed of the model: one Prop per claim, from the numbered rules of spec/. Nothing is proved here. -/

open Sys2Proof Sys2Proof.Machine Sys2Proof.Safety

/-! ## Encoding -/

/-- 30_encoding.md R73, its last sentence: every byte matches exactly one row of the opcode table. -/
def Obligations.EveryByteMatchesExactlyOneRow : Prop :=
  ∀ opc : Byte, (opcodeRows.filter fun row => row.covers opc).length = 1

/-- 30_encoding.md R74: every byte is one of the eight commands, or ends with ILLEGAL. -/
def Obligations.EveryByteIsACommandOrIllegal : Prop :=
  ∀ opc : Byte,
    (∀ i, [Instr.nop, .add, .sub, .mul, .div, .deg, .eval, .interp][opc.toNat]? = some i → decode opc = .ok i) ∧
    (0x08 ≤ opc.toNat → ∃ i, decode opc = .ok i ∧ ∀ s, exec i s = .next (illegalIn s))

/-- 30_encoding.md R71: opcode bytes written out bit by bit, one of each family and both ends of the reserved range. -/
def Obligations.WrittenOutOpcodesDecode : Prop :=
  decodeTableWord 8 0b00000000 = some .nop ∧
  decodeTableWord 8 0b00000011 = some .mul ∧
  decodeTableWord 8 0b00000101 = some .deg ∧
  decodeTableWord 8 0b00000110 = some .eval ∧
  decodeTableWord 8 0b00000111 = some .interp ∧
  decodeTableWord 8 0b00001000 = some (.reserved08 0b00001000#8) ∧
  decodeTableWord 8 0b11111111 = some (.reserved80 0b11111111#8)

/-- Encoding loses no bit: the byte of a well-formed command decodes to that command, with its whole opcode. -/
def Obligations.DecodeOfEncodeIsTheCommand : Prop :=
  ∀ i : Instr, i.wf = true → decode (encode i) = .ok i

/-- Each byte has one meaning: what a byte decodes to is well formed and encodes to that byte. -/
def Obligations.EncodeOfDecodeIsTheByte : Prop :=
  ∀ (opc : Byte) (i : Instr), decode opc = .ok i → i.wf = true ∧ encode i = opc

/-- 30_encoding.md R77: the transaction word's fields, its reading back, and the rule's three examples. -/
def Obligations.TransactionWordHoldsTheAccess : Prop :=
  (∀ (off : Offset) (v : Byte), (transactionWord (.write off v)).toNat = 2 ^ 18 + off.toNat * 2 ^ 8 + v.toNat) ∧
  (∀ off : Offset, (transactionWord (.read off)).toNat = off.toNat * 2 ^ 8) ∧
  (∀ x : Transaction, readTransactionWord (transactionWord x) = some x) ∧
  transactionWord (.write Off.a 0x5A#8) = 0x4045A#19 ∧
  transactionWord (.write Off.cmd (encode .mul)) = 0x40203#19 ∧
  transactionWord (.read Off.status) = 0x00300#19

/-! ## One step -/

/-- 20_memory.md R60: when the unit moves, the step is the meaning of the pending command, and it is enabled only while the
phase is BUSY. When the unit moves (`UnitIsNext`) is the model's choice (log 1). -/
def Obligations.StepRunsThePendingCommand : Prop :=
  (∀ (s : State) (opc : Byte) (i : Instr), s.phase = .busy opc → decode opc = .ok i → UnitIsNext s →
    step s = exec i (popEvent s)) ∧
  (∀ s : State, s.phase = .idle → s.events.head? = some .unitMoves → step s = .next (popEvent s))

/-- When the host moves, the step runs its next statement; a program that has ended does nothing (log 1). -/
def Obligations.StepRunsTheHostsNextStatement : Prop :=
  (∀ (s : State) (st : Stmt), HostIsNext s → nextStmt s = some st → step s = runStmt st (popEvent s)) ∧
  (∀ s : State, HostIsNext s → nextStmt s = none → step s = .next (popEvent s))

/-- A table word placed as accepted runs as the very next step, whatever the state (the model's loading of a command,
log 2). -/
def Obligations.PlacedTableWordRunsNext : Prop :=
  ∀ (s : State) (w : Nat) (i : Instr), decodeTableWord 8 w = some i →
    step (s.withFetchWord 8 w) = exec i (accept (BitVec.ofNat 8 w) s)

/-! ## The commands -/

/-- 40_field.md R91. -/
def Obligations.NopCompletesAndKeepsR : Prop :=
  decode 0x00#8 = .ok .nop ∧
  (∀ s : State, exec .nop s = .next (doneWith s.r s)) ∧
  (∀ s : State, (accept 0x00#8 s).status = 0x01#8) ∧
  (∀ s : State, s.r = 0x11#8 → s.status = 0x01#8 →
    ∃ t, exec .nop s = .next t ∧ t.r = 0x11#8 ∧ hostRead Off.status t = 0x02#8)

/-- 40_field.md R99. -/
def Obligations.AddWritesTheExclusiveOr : Prop :=
  decode 0x01#8 = .ok .add ∧
  (∀ s : State, exec .add s = .next (doneWith (s.a ^^^ s.b) s)) ∧
  (∀ s : State, s.a = s.b → exec .add s = .next (doneWith 0x00#8 s)) ∧
  (∀ s : State, s.a = 0x00#8 → exec .add s = .next (doneWith s.b s)) ∧
  (∀ s : State, s.a = 0x53#8 → s.b = 0xCA#8 → exec .add s = .next (doneWith 0x99#8 s))

/-- 40_field.md R100: SUB is ADD on every input, and is symmetric. -/
def Obligations.SubWritesTheExclusiveOr : Prop :=
  decode 0x02#8 = .ok .sub ∧
  (∀ s : State, exec .sub s = .next (doneWith (s.a ^^^ s.b) s)) ∧
  (∀ s : State, exec .sub s = exec .add s) ∧
  (∀ x y : Byte, gsub x y = gsub y x) ∧
  (∀ s : State, s.a = 0xFF#8 → s.b = 0x0F#8 → exec .sub s = .next (doneWith 0xF0#8 s))

/-- 40_field.md R101. -/
def Obligations.MulWritesTheFieldProduct : Prop :=
  decode 0x03#8 = .ok .mul ∧
  (∀ s : State, exec .mul s = .next (doneWith (gmul s.a s.b) s)) ∧
  (∀ s : State, s.a = 0x00#8 ∨ s.b = 0x00#8 → exec .mul s = .next (doneWith 0x00#8 s)) ∧
  (∀ s : State, s.a = 0x01#8 → exec .mul s = .next (doneWith s.b s)) ∧
  (logRom 0xF6#8 = 254#8 ∧ antilogRom 508 = 0x52#8 ∧
    ∀ s : State, s.a = 0xF6#8 → s.b = 0xF6#8 → exec .mul s = .next (doneWith 0x52#8 s)) ∧
  (∀ s : State, s.a = 90#8 → s.b = 21#8 → exec .mul s = .next (doneWith 254#8 s))

/-- 40_field.md R102: DIVZERO exactly when B = 0, also for A = 0. -/
def Obligations.DivWritesTheQuotientOrRaisesDivzero : Prop :=
  decode 0x04#8 = .ok .div ∧
  (∀ s : State, s.b ≠ 0x00#8 → exec .div s = .next (doneWith (gdiv s.a s.b) s)) ∧
  (∀ s : State, s.b = 0x00#8 → exec .div s = .next (divzeroIn s)) ∧
  (∀ s : State, s.a = 0x00#8 → s.b ≠ 0x00#8 → exec .div s = .next (doneWith 0x00#8 s)) ∧
  (255 - (logRom 0x01#8).toNat = 255 ∧ antilogRom 255 = 0x01#8 ∧
    ∀ s : State, s.b = 0x01#8 → exec .div s = .next (doneWith s.a s)) ∧
  (∀ s : State, s.a = s.b → s.b ≠ 0x00#8 → exec .div s = .next (doneWith 0x01#8 s)) ∧
  (∃ x y : Byte, x ≠ 0x00#8 ∧ y ≠ 0x00#8 ∧ gdiv x y ≠ gdiv y x) ∧
  (∀ s : State, s.a = 90#8 → s.b = 21#8 → exec .div s = .next (doneWith 189#8 s))

/-- 40_field.md R103: R is the highest index in 1..LEN-1 with a nonzero coefficient, or 0. Entry 0 and the entries at LEN and
above play no part in `IsDegree`. -/
def Obligations.DegWritesTheDegreeIndex : Prop :=
  decode 0x05#8 = .ok .deg ∧
  (∀ (s : State) (d : Nat), IsDegree s d → exec .deg s = .next (doneWith (BitVec.ofNat 8 d) s)) ∧
  (∀ s : State, ∃ d, d ≤ 254 ∧ IsDegree s d) ∧
  (∀ s : State, s.len = 0#8 ∨ s.len = 1#8 → exec .deg s = .next (doneWith 0x00#8 s)) ∧
  (∀ s : State, s.len = 3#8 → s.coef 0 = 1#8 → s.coef 1 = 2#8 → s.coef 2 = 0#8 →
    exec .deg s = .next (doneWith 0x01#8 s))

/-- 41_polynomial.md R121: the recurrence from index LEN-1 down to 0, and the rule's corner cases. The loop's value is
`acc i` after the iteration of index i. -/
def Obligations.EvalRunsHornersRecurrence : Prop :=
  decode 0x06#8 = .ok .eval ∧
  (∀ s : State, ∃ acc : Nat → Byte, acc s.len.toNat = 0x00#8 ∧
    (∀ i, i < s.len.toNat → acc i = gadd (gmul (acc (i + 1)) s.a) (s.coef i)) ∧
    exec .eval s = .next (doneWith (acc 0) s)) ∧
  (∀ s : State, s.len = 0#8 → exec .eval s = .next (doneWith 0x00#8 s)) ∧
  (∀ s : State, s.len = 1#8 → exec .eval s = .next (doneWith (s.coef 0) s)) ∧
  (∀ s : State, s.len ≠ 0#8 → s.a = 0x00#8 → exec .eval s = .next (doneWith (s.coef 0) s)) ∧
  (∀ s : State, s.a = 0x01#8 → exec .eval s = .next (doneWith (s.coefficients.foldl (· ^^^ ·) 0x00#8) s)) ∧
  (∀ s t : State, s.a = t.a → s.len.toNat ≤ t.len.toNat → (∀ i, i < s.len.toNat → t.coef i = s.coef i) →
    (∀ i, s.len.toNat ≤ i → i < t.len.toNat → t.coef i = 0x00#8) →
    ∃ v, exec .eval s = .next (doneWith v s) ∧ exec .eval t = .next (doneWith v t)) ∧
  (∀ s : State, s.len = 4#8 → s.coef 0 = 1#8 → s.coef 1 = 0#8 → s.coef 2 = 2#8 → s.coef 3 = 3#8 → s.a = 2#8 →
    exec .eval s = .next (doneWith 17#8 s))

/-- 41_polynomial.md R123: DIVZERO exactly when two of the first NPTS points share an x; else the two nested loops, whose
values are `basis i j` before iteration j of point i and `acc i` before point i; and the rule's corner cases. -/
def Obligations.InterpRunsLagrangeAtZeroOrRaisesDivzero : Prop :=
  decode 0x07#8 = .ok .interp ∧
  (∀ s : State, ¬ DistinctX s → exec .interp s = .next (divzeroIn s)) ∧
  (∀ s : State, DistinctX s → ∃ (acc : Nat → Byte) (basis : Nat → Nat → Byte), acc 0 = 0x00#8 ∧
    (∀ i, i < s.npts.toNat → basis i 0 = 0x01#8 ∧
      (∀ j, j < s.npts.toNat → basis i (j + 1) =
        if j = i then basis i j else gmul (basis i j) (gdiv (gsub 0x00#8 (s.px j)) (gsub (s.px i) (s.px j)))) ∧
      acc (i + 1) = gadd (acc i) (gmul (basis i s.npts.toNat) (s.py i))) ∧
    exec .interp s = .next (doneWith (acc s.npts.toNat) s)) ∧
  (∀ s : State, s.npts = 0#8 → exec .interp s = .next (doneWith 0x00#8 s)) ∧
  (∀ s : State, s.npts = 1#8 → exec .interp s = .next (doneWith (s.py 0) s)) ∧
  (∀ (s : State) (i : Nat), DistinctX s → i < s.npts.toNat → s.px i = 0x00#8 →
    exec .interp s = .next (doneWith (s.py i) s)) ∧
  (∀ s : State, s.npts = 3#8 → s.px 0 = 1#8 → s.py 0 = 80#8 → s.px 1 = 2#8 → s.py 1 = 90#8 → s.px 2 = 3#8 →
    s.py 2 = 20#8 → exec .interp s = .next (doneWith 30#8 s))

/-- 60_exceptions.md R141 (and 30_encoding.md R73): each reserved row, on any of its opcodes. -/
def Obligations.ReservedOpcodesRaiseIllegal : Prop :=
  (∀ (opc : Byte) (s : State), exec (.reserved08 opc) s = .next (illegalIn s)) ∧
  (∀ (opc : Byte) (s : State), exec (.reserved10 opc) s = .next (illegalIn s)) ∧
  (∀ (opc : Byte) (s : State), exec (.reserved20 opc) s = .next (illegalIn s)) ∧
  (∀ (opc : Byte) (s : State), exec (.reserved40 opc) s = .next (illegalIn s)) ∧
  (∀ (opc : Byte) (s : State), exec (.reserved80 opc) s = .next (illegalIn s)) ∧
  (∀ opc : Byte, 0x08 ≤ opc.toNat → ∃ i, decode opc = .ok i ∧ ∀ s, exec i s = .next (illegalIn s))

/-! ## How commands end -/

/-- 60_exceptions.md R142, field by field. -/
def Obligations.SuccessfulCompletionWritesRAndStatus : Prop :=
  (∀ (v : Byte) (s : State), ∃ st : Byte, complete v s = { s with r := v, status := st, phase := .idle } ∧
    Status.busy st = false ∧ Status.done st = true ∧ Status.err st = false ∧ Status.ecode st = 0#3 ∧
    Status.wovr st = Status.wovr s.status) ∧
  (∀ (v : Byte) (s : State), s.status = 0x01#8 → hostRead Off.status (complete v s) = 0x02#8) ∧
  (∀ (v : Byte) (s : State), s.status = 0x41#8 → hostRead Off.status (complete v s) = 0x42#8)

/-- 60_exceptions.md R143, field by field. -/
def Obligations.ErrorCompletionWritesStatusOnly : Prop :=
  (∀ (code : ErrorCode) (s : State), ∃ st : Byte, raiseError code s = { s with status := st, phase := .idle } ∧
    Status.busy st = false ∧ Status.done st = false ∧ Status.err st = true ∧ Status.ecode st = errorBits code ∧
    Status.wovr st = Status.wovr s.status) ∧
  errorBits .illegal = 1#3 ∧ errorBits .divzero = 2#3 ∧
  (∀ s : State, s.status = 0x01#8 → hostRead Off.status (raiseError .illegal s) = 0x0C#8 ∧
    hostRead Off.status (raiseError .divzero s) = 0x14#8) ∧
  (∀ s : State, s.status = 0x41#8 → hostRead Off.status (raiseError .illegal s) = 0x4C#8 ∧
    hostRead Off.status (raiseError .divzero s) = 0x54#8)

/-- 60_exceptions.md R140 and R144: ECODE after a completion, an acceptance and a reset; DIVZERO is raised in exactly two cases,
and 3 to 7 are never produced. -/
def Obligations.EcodeTellsHowTheCommandEnded : Prop :=
  (∀ (i : Instr) (s t : State), exec i s = .next t →
    (Status.ecode t.status = 0#3 ↔ Status.done t.status = true) ∧
    (Status.ecode t.status = 2#3 ↔ (i = .div ∧ s.b = 0x00#8) ∨ (i = .interp ∧ ¬ DistinctX s)) ∧
    (Status.ecode t.status).toNat ≤ 2) ∧
  (∀ (i : Instr) (s t : State), i.wf = true → exec i s = .next t →
    (Status.ecode t.status = 1#3 ↔ 0x08 ≤ (encode i).toNat)) ∧
  (∀ (opc : Byte) (s : State), Status.ecode (accept opc s).status = 0#3) ∧
  (∀ s : State, Status.ecode (resetBlock s).status = 0#3)

/-- 20_memory.md R59, what commands write: R, STATUS and the phase, and nothing else; so every other offset reads as
before. -/
def Obligations.CommandsWriteOnlyRAndStatus : Prop :=
  ∀ (i : Instr) (s t : State), exec i s = .next t →
    t = { s with r := t.r, status := t.status, phase := .idle } ∧
    (∀ off : Offset, off ≠ Off.r → off ≠ Off.status → hostRead off t = hostRead off s) ∧
    Status.wovr t.status = Status.wovr s.status

/-- 20_memory.md R59, what commands read: two states that agree on the operands the rule lists end with the same error, and
with the same R where the command completes. -/
def Obligations.CommandsReadOnlyTheirOperands : Prop :=
  ∀ (i : Instr) (s t s' t' : State), exec i s = .next s' → exec i t = .next t' →
    (i = .nop → s.r = t.r) →
    (i = .add ∨ i = .sub ∨ i = .mul ∨ i = .div → s.a = t.a ∧ s.b = t.b) →
    (i = .deg → s.len = t.len ∧ ∀ k, k < s.len.toNat → s.coef k = t.coef k) →
    (i = .eval → s.a = t.a ∧ s.len = t.len ∧ ∀ k, k < s.len.toNat → s.coef k = t.coef k) →
    (i = .interp → s.npts = t.npts ∧ ∀ k, k < s.npts.toNat → s.px k = t.px k ∧ s.py k = t.py k) →
    Status.ecode s'.status = Status.ecode t'.status ∧ (Status.done s'.status = true → s'.r = t'.r)

/-! ## The host register space -/

/-- 20_memory.md R51: the address map, every offset. -/
def Obligations.AddressMapDecodesEveryOffset : Prop :=
  locate 0x000#10 = .id ∧ locate 0x001#10 = .rev ∧ locate 0x002#10 = .cmd ∧ locate 0x003#10 = .status ∧
  locate 0x004#10 = .a ∧ locate 0x005#10 = .b ∧ locate 0x006#10 = .r ∧ locate 0x007#10 = .len ∧ locate 0x008#10 = .npts ∧
  (∀ off : Offset, 0x009 ≤ off.toNat → off.toNat ≤ 0x0FF → locate off = .reserved) ∧
  (∀ off : Offset, 0x100 ≤ off.toNat → off.toNat ≤ 0x1FE → locate off = .coef (off.toNat - 0x100)) ∧
  locate 0x1FF#10 = .reserved ∧
  (∀ off : Offset, 0x200 ≤ off.toNat → off.toNat ≤ 0x2FE → locate off = .px (off.toNat - 0x200)) ∧
  locate 0x2FF#10 = .reserved ∧
  (∀ off : Offset, 0x300 ≤ off.toNat → off.toNat ≤ 0x3FE → locate off = .py (off.toNat - 0x300)) ∧
  locate 0x3FF#10 = .reserved

/-- 20_memory.md R54 and 10_state.md R25: what a read returns, whatever BUSY is, and that it changes no state of the block.
That STATUS reads as its seven low bits in every state is read from R25 (log 10); that the host also moves under an empty
schedule is the model's choice (log 1). -/
def Obligations.HostReadReturnsTheValueAndChangesNothing : Prop :=
  (∀ s : State, hostRead Off.id s = 0x47#8 ∧ hostRead Off.rev s = 0x01#8 ∧ hostRead Off.cmd s = 0x00#8 ∧
    hostRead Off.status s = s.status &&& 0x7F#8 ∧ hostRead Off.a s = s.a ∧ hostRead Off.b s = s.b ∧
    hostRead Off.r s = s.r ∧ hostRead Off.len s = s.len ∧ hostRead Off.npts s = s.npts ∧
    (∀ i, i < 255 → hostRead (Off.coef i) s = s.coef i ∧ hostRead (Off.px i) s = s.px i ∧
      hostRead (Off.py i) s = s.py i) ∧
    (∀ off : Offset, locate off = .reserved → hostRead off s = 0x00#8)) ∧
  (∀ (s : State) (off : Offset) (t : Nat), HostIsNext s → nextStmt s = some (.rd off t) →
    ∃ h, step s = .next { s with host := h, events := s.events.tail } ∧ tempValue h.temps t = hostRead off s)

/-- 20_memory.md R52. -/
def Obligations.ReservedOffsetsReadZeroAndIgnoreWrites : Prop :=
  ∀ off : Offset, (0x009 ≤ off.toNat ∧ off.toNat ≤ 0x0FF) ∨ off = 0x1FF#10 ∨ off = 0x2FF#10 ∨ off = 0x3FF#10 →
    ∀ (v : Byte) (s : State), hostRead off s = 0x00#8 ∧
      (Status.busy s.status = false → hostWrite off v s = s) ∧
      (Status.busy s.status = true → hostWrite off v s = { s with status := s.status ||| 0x40#8 })

/-- 20_memory.md R55, both branches and every case of the map. -/
def Obligations.HostWriteActsByBusyAndOffset : Prop :=
  ∀ (v : Byte) (s : State),
    (Status.busy s.status = true → ∀ off : Offset, hostWrite off v s = { s with status := s.status ||| 0x40#8 }) ∧
    (Status.busy s.status = false →
      hostWrite Off.cmd v s = { s with phase := .busy v, status := 0x01#8 } ∧
      hostWrite Off.a v s = { s with a := v } ∧
      hostWrite Off.b v s = { s with b := v } ∧
      hostWrite Off.len v s = { s with len := v } ∧
      hostWrite Off.npts v s = { s with npts := v } ∧
      (∀ i, i < 255 →
        hostWrite (Off.coef i) v s = { s with mem := Memory.store s.mem (0x100 + i) v } ∧
        hostWrite (Off.px i) v s = { s with mem := Memory.store s.mem (0x200 + i) v } ∧
        hostWrite (Off.py i) v s = { s with mem := Memory.store s.mem (0x300 + i) v }) ∧
      hostWrite Off.id v s = s ∧ hostWrite Off.rev v s = s ∧ hostWrite Off.status v s = s ∧ hostWrite Off.r v s = s ∧
      (∀ off : Offset, locate off = .reserved → hostWrite off v s = s))

/-- 10_state.md R24. That the unit is next also under an empty schedule (`UnitIsNext`) is the model's choice (log 1). -/
def Obligations.CmdWriteIsAcceptedOnlyWhileIdle : Prop :=
  (∀ (v : Byte) (s : State), Status.busy s.status = false →
    hostWrite 0x002#10 v s = { s with phase := .busy v, status := 0x01#8 }) ∧
  (∀ (v : Byte) (s : State), Status.busy s.status = true →
    hostWrite 0x002#10 v s = { s with status := s.status ||| 0x40#8 }) ∧
  (∀ (v : Byte) (s : State) (i : Instr), Status.busy s.status = false → decode v = .ok i → UnitIsNext s →
    step (hostWrite 0x002#10 v s) = exec i (popEvent (hostWrite 0x002#10 v s)))

/-- A read after a write, made while BUSY = 0, of a read-write offset gives the byte written, and every other offset but STATUS
reads as before any write (20_memory.md R54, R55, R61). -/
def Obligations.ReadAfterWriteGivesTheByte : Prop :=
  (∀ (off : Offset) (v : Byte) (s : State), Status.busy s.status = false →
    isBufferOffset off.toNat = true ∨ off ∈ [Off.a, Off.b, Off.len, Off.npts] →
    hostRead off (hostWrite off v s) = v) ∧
  (∀ (off other : Offset) (v : Byte) (s : State), other ≠ off → other ≠ Off.status →
    hostRead other (hostWrite off v s) = hostRead other s)

/-- 20_memory.md R58: writing the same byte again changes nothing, but for CMD, where an accepted write starts a new
command. -/
def Obligations.RepeatedWritesAreIdempotent : Prop :=
  (∀ (off : Offset) (v : Byte) (s : State), off ≠ Off.cmd → hostWrite off v (hostWrite off v s) = hostWrite off v s) ∧
  (∀ (v : Byte) (s : State), Status.busy s.status = false →
    hostWrite Off.cmd v (hostWrite Off.cmd v s) ≠ hostWrite Off.cmd v s)

/-- 20_memory.md R64: a STATUS read right after a CMD write shows in WOVR whether the write was dropped. -/
def Obligations.WovrTellsWhetherTheCmdWriteWasDropped : Prop :=
  ∀ (v : Byte) (s : State), Status.wovr (hostRead Off.status (hostWrite Off.cmd v s)) = Status.busy s.status

/-- 20_memory.md R50 (a): offset `off` is at platform address BASE + off, whatever BASE is, and no other address is in the
block. -/
def Obligations.OffsetsStandAtBasePlusOffset : Prop :=
  (∀ off : Offset, platformAddress off = Config.base + off.toNat ∧ offsetAt (platformAddress off) = some off) ∧
  (∀ (addr : Nat) (off : Offset), offsetAt addr = some off → addr = platformAddress off) ∧
  (∀ addr : Nat, addr < Config.base ∨ Config.base + 0x3FF < addr → offsetAt addr = none)

/-- What each host statement does when the host moves (30_encoding.md R75). -/
def Obligations.HostStatementsReadWriteAndBranch : Prop :=
  (∀ (s : State) (off : Offset) (v : Byte), runStmt (.wr off (.lit v)) s = .next (hostAdvance (hostWrite off v s))) ∧
  (∀ (s : State) (off : Offset) (t : Nat) (v : Byte), Memory.lookup s.host.temps t = some v →
    runStmt (.wr off (.temp t)) s = .next (hostAdvance (hostWrite off v s))) ∧
  (∀ (s : State) (off : Offset) (t : Nat), ∃ u, runStmt (.rd off t) s = .next u ∧
    u = { s with host := u.host } ∧ u.host.prog = s.host.prog ∧ u.host.pos = s.host.pos + 1 ∧
    tempValue u.host.temps t = hostRead off s ∧
    ∀ t', t' ≠ t → tempValue u.host.temps t' = tempValue s.host.temps t') ∧
  (∀ (s : State) (l : Nat), runStmt (.label l) s = .next (hostAdvance s)) ∧
  (∀ (s : State) (t : Nat) (bit : Fin 8) (l : Nat), (tempValue s.host.temps t).getLsbD bit = false →
    runStmt (.bnz t bit l) s = .next (hostAdvance s)) ∧
  (∀ (s : State) (t : Nat) (bit : Fin 8) (l pos : Nat), (tempValue s.host.temps t).getLsbD bit = true →
    labelPosition l s.host.prog = some pos → s.host.prog[pos]? = some (.label l) ∧
      runStmt (.bnz t bit l) s = .next (hostJump pos s))

/-- 30_encoding.md R76, `exec OP` begun while BUSY = 0, OP a byte or a temporary: with the completion step placed right after
the acceptance (an empty schedule, log 1), it runs the command once and ends past the `wait` with STATUS in the temporary,
BUSY = 0. -/
def Obligations.ExecPseudoRunsTheCommandAndWaits : Prop :=
  ∀ (s : State) (l t : Nat) (src : Source) (i : Instr), Inv s → s.phase = .idle → s.events = [] →
    decode (sourceValue s.host.temps src) = .ok i →
    (∀ k, k < 4 → s.host.prog[s.host.pos + k]? = (pseudoExec l t src)[k]?) →
    ∃ u w, exec i (accept (sourceValue s.host.temps src) (hostAdvance s)) = .next u ∧ Host.Core.run core 5 s = .next w ∧
      w = { u with host := w.host } ∧ w.host.prog = s.host.prog ∧ w.host.pos = s.host.pos + 4 ∧
      tempValue w.host.temps t = hostRead Off.status u ∧ Status.busy (tempValue w.host.temps t) = false

/-! ## Reset -/

/-- 10_state.md R44: every piece of state after reset; a buffer entry holds its RESET_BUF draw, whatever it is. PENDING stands
in the phase, and the ROMs are constants that no state holds. -/
def Obligations.ResetStateHoldsTheStatedValues : Prop :=
  State.reset.phase = .idle ∧ State.reset.status = 0x00#8 ∧
  State.reset.a = 0x00#8 ∧ State.reset.b = 0x00#8 ∧ State.reset.r = 0x00#8 ∧ State.reset.len = 0x00#8 ∧
  State.reset.npts = 0x00#8 ∧
  hostRead Off.id State.reset = 0x47#8 ∧ hostRead Off.rev State.reset = 0x01#8 ∧
  (∀ i, i < 255 → State.reset.coef i = Config.resetBuf State.reset.resets (0x100 + i) ∧
    State.reset.px i = Config.resetBuf State.reset.resets (0x200 + i) ∧
    State.reset.py i = Config.resetBuf State.reset.resets (0x300 + i))

/-- 70_reset_and_hazards.md R160 and R161: the platform's reset, in any state, also while BUSY: no completion step happens, and
each buffer entry holds a new draw, whatever the host wrote before; the next CMD write is accepted. The ROMs are constants
that no state holds. The count of resets and the new draw at each are the model's (log 3), and so is reset as one event of
one turn (log 13). -/
def Obligations.ResetEventAbandonsTheCommand : Prop :=
  ∀ (s : State), s.events.head? = some .reset → ∃ t, step s = .next t ∧
    t.phase = .idle ∧ t.status = 0x00#8 ∧ t.a = 0x00#8 ∧ t.b = 0x00#8 ∧ t.r = 0x00#8 ∧ t.len = 0x00#8 ∧
    t.npts = 0x00#8 ∧ hostRead Off.id t = 0x47#8 ∧ hostRead Off.rev t = 0x01#8 ∧
    s.resets < t.resets ∧
    (∀ i, i < 255 → t.coef i = Config.resetBuf t.resets (0x100 + i) ∧
      t.px i = Config.resetBuf t.resets (0x200 + i) ∧ t.py i = Config.resetBuf t.resets (0x300 + i)) ∧
    (∀ v : Byte, hostWrite Off.cmd v t = { t with phase := .busy v, status := 0x01#8 })

/-- 10_state.md R45: an entry not written since reset keeps its draw until the host writes that entry (or the platform resets
the block), and a host read and a command's read of an entry both give what it holds. -/
def Obligations.UnwrittenEntriesKeepTheirDraw : Prop :=
  (∀ (s t : State) (n : Nat), Memory.lookup s.mem n = none → step s = .next t → t.resets = s.resets →
    readBuffer s n = Config.resetBuf s.resets n ∧
    (readBuffer t n = readBuffer s n ∨
      (Status.busy s.status = false ∧ ∃ off src, off.toNat = n ∧ nextStmt s = some (.wr off src)))) ∧
  (∀ (s : State) (i : Nat), i < 255 →
    (hostRead (Off.coef i) s = readBuffer s (0x100 + i) ∧ s.coef i = readBuffer s (0x100 + i)) ∧
    (hostRead (Off.px i) s = readBuffer s (0x200 + i) ∧ s.px i = readBuffer s (0x200 + i)) ∧
    (hostRead (Off.py i) s = readBuffer s (0x300 + i) ∧ s.py i = readBuffer s (0x300 + i)))

/-! ## Rules of the whole machine -/

/-- No operand, buffer entry or constant changes in a step, but by the host's own write of that offset while BUSY = 0, or by a
reset (20_memory.md R55, R59). -/
def Obligations.OnlyAHostWriteChangesAnOperand : Prop :=
  ∀ (s t : State) (off : Offset), step s = .next t → t.resets = s.resets → off ≠ Off.status → off ≠ Off.r →
    hostRead off t ≠ hostRead off s →
    Status.busy s.status = false ∧ ∃ src, nextStmt s = some (.wr off src) ∧
      hostRead off t = sourceValue s.host.temps src

/-- 10_state.md R35: only a successful completion writes R; an error leaves it, a running command leaves it, a host write
leaves it. -/
def Obligations.OnlyASuccessfulCompletionWritesR : Prop :=
  (∀ (s t : State), step s = .next t → t.resets = s.resets → t.r ≠ s.r →
    ∃ opc i, s.phase = .busy opc ∧ decode opc = .ok i ∧ exec i (popEvent s) = .next t ∧ t.phase = .idle ∧
      Status.done t.status = true) ∧
  (∀ (i : Instr) (s t : State), exec i s = .next t → Status.err t.status = true → t.r = s.r) ∧
  (∀ (off : Offset) (v : Byte) (s : State), (hostWrite off v s).r = s.r) ∧
  (∀ s : State, hostRead Off.r s = s.r)

/-- 10_state.md R26. -/
def Obligations.BusyIsSetByAcceptanceAndClearedByCompletion : Prop :=
  (∀ (opc : Byte) (s : State), Status.busy (accept opc s).status = true) ∧
  (∀ (i : Instr) (s t : State), exec i s = .next t → Status.busy t.status = false) ∧
  (∀ s : State, Status.busy (resetBlock s).status = false) ∧
  (∀ s t : State, Inv s → step s = .next t → Status.busy s.status = false → Status.busy t.status = true →
    ∃ src, nextStmt s = some (.wr Off.cmd src) ∧ t.phase = .busy (sourceValue s.host.temps src)) ∧
  (∀ s t : State, Inv s → step s = .next t → Status.busy s.status = true → Status.busy t.status = false →
    s.events.head? = some .reset ∨
      ∃ opc i, s.phase = .busy opc ∧ decode opc = .ok i ∧ exec i (popEvent s) = .next t) ∧
  (∀ (off : Offset) (v : Byte) (s : State), Status.busy s.status = true →
    hostWrite off v s = { s with status := s.status ||| 0x40#8 })

/-- 10_state.md R29. -/
def Obligations.WovrIsStickyUntilAcceptanceOrReset : Prop :=
  (∀ (off : Offset) (v : Byte) (s : State), Status.busy s.status = true →
    Status.wovr (hostWrite off v s).status = true ∧ (hostWrite off v s).phase = s.phase ∧ SameData (hostWrite off v s) s) ∧
  (∀ (i : Instr) (s t : State), exec i s = .next t → Status.wovr t.status = Status.wovr s.status) ∧
  (∀ s t : State, step s = .next t → Status.wovr s.status = true → Status.wovr t.status = false →
    s.events.head? = some .reset ∨
      (Status.busy s.status = false ∧ ∃ src, nextStmt s = some (.wr Off.cmd src) ∧ t.status = 0x01#8)) ∧
  (∀ (opc : Byte) (s : State), Status.wovr (accept opc s).status = false) ∧
  (∀ s : State, Status.wovr (resetBlock s).status = false)

/-- A host whose next statement is never a write while BUSY = 1 never sees WOVR = 1 (70_reset_and_hazards.md R166, R168). -/
def Obligations.ProtocolKeepersNeverSeeWovr : Prop :=
  ∀ (k : Nat) (s t : State), Status.wovr s.status = false →
    (∀ j u, j < k → Host.Core.run core j s = .next u → Status.busy u.status = true →
      ∀ off src, nextStmt u ≠ some (.wr off src)) →
    Host.Core.run core k s = .next t → Status.wovr t.status = false

/-- 60_exceptions.md R159: the three situations (the events that stand for them: log 9) are refused by name, nothing else is,
and every command ends in a next state. -/
def Obligations.OnlyTheThreeUndefinedSituationsAreRefused : Prop :=
  (∀ s : State, s.events.head? = some .wideAccess → step s = .refused .wideAccess) ∧
  (∀ s : State, s.events.head? = some .unserialisedMaster → step s = .refused .unserialisedMaster) ∧
  (∀ s : State, s.events.head? = some .undefinedReset → step s = .refused .undefinedReset) ∧
  (∀ (s : State) (r : Refusal), step s = .refused r →
    s.events.head? = some .wideAccess ∨ s.events.head? = some .unserialisedMaster ∨
      s.events.head? = some .undefinedReset) ∧
  (∀ (i : Instr) (s : State), ∃ t, exec i s = .next t)

/-- The only fault is the host's own: a branch to a label its program does not have (the model's choice, log 8). -/
def Obligations.OnlyAMissingLabelFaults : Prop :=
  ∀ (s : State) (f : Fault), step s = .fault f → f = .missingLabel ∧ HostIsNext s ∧
    ∃ t bit l, nextStmt s = some (.bnz t bit l) ∧ labelPosition l s.host.prog = none

/-! ## Invariants and progress -/

/-- The state after reset meets the invariant. -/
def Obligations.ResetStateMeetsTheInvariant : Prop := Inv State.reset

/-- Every step keeps the invariant, from every state that meets it. -/
def Obligations.EveryStepKeepsTheInvariant : Prop :=
  ∀ s t : State, Inv s → step s = .next t → Inv t

/-- 10_state.md R43 (a) to (e): in every state reachable from reset, for every host program and every schedule. -/
def Obligations.StatusInvariantsHoldInEveryReachableState : Prop :=
  ∀ (prog : List Stmt) (es : List Event) (k : Nat) (t : State),
    Host.Core.run core k { State.reset with host := ⟨prog, 0, []⟩, events := es } = .next t →
    (Status.busy t.status = true →
      Status.done t.status = false ∧ Status.err t.status = false ∧ Status.ecode t.status = 0#3) ∧
    ¬ (Status.done t.status = true ∧ Status.err t.status = true) ∧
    (Status.err t.status = false ↔ Status.ecode t.status = 0#3) ∧
    (Status.ecode t.status).toNat ≤ 2 ∧
    Status.bit7 t.status = false

/-- Every accepted command completes (20_memory.md R60, 70_reset_and_hazards.md R172), on the operands it was accepted with
(10_state.md R41, 20_memory.md R65), wherever the schedule lets the completion step fall. That the schedule is a finite list
after which the unit completes is the model's choice (log 1). -/
def Obligations.AcceptedCommandsCompleteOnTheirOperands : Prop :=
  ∀ (s : State) (opc : Byte), Inv s → s.phase = .busy opc → AgentsOnly s → programWf s.host.prog = true →
    ∃ k u t i, k ≤ s.events.length ∧ Host.Core.run core k s = .next u ∧ u.phase = .busy opc ∧ SameData u s ∧
      decode opc = .ok i ∧ step u = .next t ∧ exec i (popEvent u) = .next t ∧ t.phase = .idle

/-! ## The field -/

/-- 40_field.md R92 and R93. -/
def Obligations.FieldAdditionAndSubtractionAreXor : Prop :=
  (∀ a b : Byte, gadd a b = a ^^^ b) ∧ (∀ a b : Byte, gadd a b = gadd b a) ∧ (∀ a b : Byte, gadd (gadd a b) b = a) ∧
  (∀ a b : Byte, gsub a b = gadd a b)

/-- 10_state.md R37: the printed ANTILOG entries are those the rule's loop builds, and take every nonzero value once. -/
def Obligations.AntilogRomIsThePowersOfThree : Prop :=
  antilogRom 0 = 0x01#8 ∧
  (∀ i, i ≤ 253 → antilogRom (i + 1) = antilogRom i ^^^
    ((antilogRom i <<< 1) ^^^ (if (antilogRom i).getLsbD 7 then 0x1B#8 else 0x00#8))) ∧
  (∀ i, 255 ≤ i → i ≤ 511 → antilogRom i = antilogRom (i % 255)) ∧
  (∀ v : Byte, v ≠ 0x00#8 → ∃ i, i ≤ 254 ∧ antilogRom i = v ∧ ∀ j, j ≤ 254 → antilogRom j = v → j = i) ∧
  antilogRom 255 = 0x01#8 ∧ antilogRom 510 = 0x01#8

/-- 10_state.md R36: LOG is the discrete logarithm to base 3; entry 0 is LOG0, whatever it is. -/
def Obligations.LogRomInvertsTheAntilogRom : Prop :=
  (∀ a : Byte, a ≠ 0x00#8 → (logRom a).toNat ≤ 254 ∧ antilogRom (logRom a).toNat = a ∧
    ∀ e, e ≤ 254 → antilogRom e = a → e = (logRom a).toNat) ∧
  logRom 0x00#8 = Config.log0

/-- 40_field.md R94, R95 and R97: multiplication and division through the tables, and the ranges of their indices. -/
def Obligations.FieldProductsStayInsideTheTables : Prop :=
  (∀ a b : Byte, a = 0x00#8 ∨ b = 0x00#8 → gmul a b = 0x00#8) ∧
  (∀ a b : Byte, a ≠ 0x00#8 → b ≠ 0x00#8 → gmul a b = antilogRom ((logRom a).toNat + (logRom b).toNat) ∧
    (logRom a).toNat + (logRom b).toNat ≤ 508) ∧
  (∀ a b : Byte, b ≠ 0x00#8 → ∃ t, t = 255 - (logRom b).toNat ∧ 1 ≤ t ∧ t ≤ 255 ∧
    gdiv a b = gmul a (antilogRom t)) ∧
  (∀ b : Byte, b ≠ 0x00#8 → gdiv 0x00#8 b = 0x00#8)

/-- 40_field.md R96: the table product is the product of polynomials modulo x^8+x^4+x^3+x+1. -/
def Obligations.TableProductIsThePolynomialProduct : Prop :=
  ∀ a b : Byte, gmul a b = polyProduct a b

/-- 40_field.md R98: the field laws. -/
def Obligations.FieldLawsHold : Prop :=
  (∀ a b : Byte, gadd a b = gadd b a ∧ gadd (gadd a b) b = a) ∧
  (∀ a b : Byte, gsub (gadd a b) b = a) ∧
  (∀ a b : Byte, b ≠ 0x00#8 → gdiv (gmul a b) b = a ∧ gmul (gdiv a b) b = a) ∧
  (∀ a b : Byte, gmul a b = gmul b a) ∧
  (∀ a b c : Byte, gmul (gmul a b) c = gmul a (gmul b c)) ∧
  (∀ a b c : Byte, gmul a (gadd b c) = gadd (gmul a b) (gmul a c)) ∧
  (∀ a : Byte, gmul 0x01#8 a = a) ∧
  (∀ a b : Byte, gmul a b = 0x00#8 → a = 0x00#8 ∨ b = 0x00#8) ∧
  (∀ b : Byte, b ≠ 0x00#8 → gmul b (gdiv 0x01#8 b) = 0x01#8 ∧ ∀ c, gmul b c = 0x01#8 → c = gdiv 0x01#8 b)

/-! ## The polynomial engine -/

/-- 41_polynomial.md R122: EVAL computes the field sum of c_i·x^i. -/
def Obligations.EvalComputesThePolynomialsValue : Prop :=
  ∀ s : State, exec .eval s = .next (doneWith (polyValue s.coef s.a s.len.toNat) s)

/-- 41_polynomial.md R124: INTERP of points on a polynomial of degree index below NPTS gives its constant term; in particular
of points that EVAL computed from a polynomial with 1 ≤ LEN ≤ NPTS, it gives COEF[0]. LEN = 0 is left out: there EVAL gives 0 at
every x, and COEF[0] is no coefficient. -/
def Obligations.InterpRecoversTheConstantTerm : Prop :=
  (∀ (s : State) (c : Nat → Byte), 1 ≤ s.npts.toNat → DistinctX s →
    (∀ i, i < s.npts.toNat → polyValue c (s.px i) s.npts.toNat = s.py i) →
    exec .interp s = .next (doneWith (c 0) s)) ∧
  (∀ (s : State) (e u : Nat → State), DistinctX s → (∀ i, i < s.npts.toNat → s.px i ≠ 0x00#8) →
    (∀ i, i < s.npts.toNat → 1 ≤ (e i).len.toNat ∧ (e i).len.toNat ≤ s.npts.toNat ∧ (e i).len = (e 0).len ∧
      (∀ k, k < (e i).len.toNat → (e i).coef k = (e 0).coef k) ∧ (e i).a = s.px i ∧
      exec .eval (e i) = .next (u i) ∧ (u i).r = s.py i) →
    1 ≤ s.npts.toNat → exec .interp s = .next (doneWith ((e 0).coef 0) s))

/-- 41_polynomial.md R125: neither the order of the points in the buffers nor the order in which the loops visit i and j
(`order` of the points, `inner i` of the factors of point i's basis) changes the result. The points have distinct x, as the rule
says; a repeated x is in InterpRunsLagrangeAtZeroOrRaisesDivzero and EcodeTellsHowTheCommandEnded. -/
def Obligations.InterpDoesNotDependOnAnyOrder : Prop :=
  (∀ (s t : State) (σ : Nat → Nat), s.npts = t.npts → DistinctX s →
    (∀ i, i < s.npts.toNat → σ i < s.npts.toNat) →
    (∀ i j, i < s.npts.toNat → j < s.npts.toNat → σ i = σ j → i = j) →
    (∀ i, i < s.npts.toNat → t.px i = s.px (σ i) ∧ t.py i = s.py (σ i)) →
    ∃ v, exec .interp s = .next (doneWith v s) ∧ exec .interp t = .next (doneWith v t)) ∧
  (∀ (s : State) (order : List Nat) (inner : Nat → List Nat), DistinctX s →
    order.Perm (List.range s.npts.toNat) → (∀ i, (inner i).Perm (List.range s.npts.toNat)) →
    exec .interp s = .next (doneWith (order.foldl (fun acc i => gadd acc (gmul ((inner i).foldl (fun basis j =>
      if j = i then basis else gmul basis (gdiv (gsub 0x00#8 (s.px j)) (gsub (s.px i) (s.px j)))) 0x01#8) (s.py i)))
      0x00#8) s))
end

