-- ==== Sys2Proof/Laws/Field.lean ====
section
/-! SUPPORT. Small facts of the field functions, and the loops of EVAL and INTERP as folds (40_field.md R92 to R97;
41_polynomial.md R121, R123). -/

namespace Sys2Proof.Machine

@[simp] theorem gmul_zero_left (b : Byte) : gmul 0x00#8 b = 0x00#8 := by simp [gmul]
@[simp] theorem gmul_zero_right (a : Byte) : gmul a 0x00#8 = 0x00#8 := by simp [gmul]
@[simp] theorem gdiv_zero_left (b : Byte) : gdiv 0x00#8 b = 0x00#8 := by simp [gdiv]
@[simp] theorem gadd_zero_left (b : Byte) : gadd 0x00#8 b = b := by simp [gadd]
@[simp] theorem gadd_zero_right (a : Byte) : gadd a 0x00#8 = a := by simp [gadd]
@[simp] theorem gadd_self (a : Byte) : gadd a a = 0x00#8 := by simp [gadd]

theorem gadd_assoc (a b c : Byte) : gadd (gadd a b) c = gadd a (gadd b c) := BitVec.xor_assoc a b c

theorem gsub_eq_gadd (a b : Byte) : gsub a b = gadd a b := rfl

/-- Multiplication by x is linear. -/
theorem xtimes_xor (a b : Byte) : xtimes (a ^^^ b) = xtimes a ^^^ xtimes b := by
  have h : ∀ v : Byte, xtimes v =
      (v <<< 1) ^^^ ((0x1B#8) &&& (BitVec.ofBool (v.getLsbD 7)).signExtend 8) := by decide
  simp only [h, BitVec.shiftLeft_xor_distrib, BitVec.getLsbD_xor]
  cases a.getLsbD 7 <;> cases b.getLsbD 7 <;> simp [BitVec.signExtend]
  · ac_rfl
  · ac_rfl
  · rw [show ∀ u v w : Byte, u ^^^ w ^^^ (v ^^^ w) = u ^^^ v ^^^ (w ^^^ w) from fun u v w => by ac_rfl]
    simp

/-- The polynomial product is linear in its first factor. -/
theorem polyProductBits_xor (n : Nat) (a b c : Byte) :
    polyProductBits n (a ^^^ b) c = polyProductBits n a c ^^^ polyProductBits n b c := by
  induction n generalizing a b c with
  | zero => simp [polyProductBits]
  | succ n ih =>
    simp only [polyProductBits, xtimes_xor, ih]
    cases c.getLsbD 0 <;> simp
    ac_rfl

@[simp] theorem horner_nil (x : Byte) : horner x [] = 0x00#8 := rfl

/-- One iteration of EVAL's loop. -/
@[simp] theorem horner_cons (x c : Byte) (cs : List Byte) : horner x (c :: cs) = gadd (gmul (horner x cs) x) c := rfl

/-- One iteration of DEG's loop. -/
theorem scanDegree_succ (coef : Nat → Byte) (i : Nat) :
    scanDegree coef (i + 1) = if coef (i + 1) ≠ 0x00#8 then i + 1 else scanDegree coef i := rfl

/-- The scan of DEG says what it found. -/
theorem scanDegree_spec (coef : Nat → Byte) (m : Nat) :
    scanDegree coef m ≤ m ∧ (∀ i, scanDegree coef m < i → i ≤ m → coef i = 0x00#8) ∧
      (scanDegree coef m = 0 ∨ coef (scanDegree coef m) ≠ 0x00#8) := by
  induction m with
  | zero => exact ⟨Nat.le_refl _, fun i h h' => absurd h (by simp [scanDegree]; omega), .inl rfl⟩
  | succ m ih =>
    rw [scanDegree_succ]
    split
    · next h => exact ⟨Nat.le_refl _, fun i h1 h2 => absurd h1 (by omega), .inr h⟩
    · next h =>
      refine ⟨by omega, fun i h1 h2 => ?_, ih.2.2⟩
      rcases Nat.lt_or_ge m i with hi | hi
      · obtain rfl : i = m + 1 := by omega
        simpa using h
      · exact ih.2.1 i h1 hi

/-- The first loop of INTERP finds exactly the shared x values. -/
theorem repeatedX_iff (n : Nat) (px : Nat → Byte) :
    repeatedX n px = true ↔ ∃ i j, i < n ∧ j < n ∧ i ≠ j ∧ px i = px j := by
  simp only [repeatedX, List.any_eq_true, List.mem_range, Bool.and_eq_true, bne_iff_ne, beq_iff_eq]
  exact ⟨fun ⟨i, hi, j, hj, h⟩ => ⟨i, j, hi, hj, h⟩, fun ⟨i, j, hi, hj, h⟩ => ⟨i, hi, j, hj, h⟩⟩

end Sys2Proof.Machine
end

