-- ==== Sys2Proof/Laws/Flags.lean ====
section
/-! SUPPORT. The fields of STATUS after each of the block's updates (10_state.md R24 to R29; 60_exceptions.md R142, R143). -/

namespace Sys2Proof.Machine.Status

@[simp] theorem busy_completed (st : Byte) : busy (completed st) = false := by revert st; decide
@[simp] theorem done_completed (st : Byte) : done (completed st) = true := by revert st; decide
@[simp] theorem err_completed (st : Byte) : err (completed st) = false := by revert st; decide
@[simp] theorem ecode_completed (st : Byte) : ecode (completed st) = 0#3 := by revert st; decide
@[simp] theorem wovr_completed (st : Byte) : wovr (completed st) = wovr st := by revert st; decide
@[simp] theorem bit7_completed (st : Byte) : bit7 (completed st) = bit7 st := by revert st; decide

@[simp] theorem busy_failed (st : Byte) (c : BitVec 3) : busy (failed st c) = false := by revert st c; decide
@[simp] theorem done_failed (st : Byte) (c : BitVec 3) : done (failed st c) = false := by revert st c; decide
@[simp] theorem err_failed (st : Byte) (c : BitVec 3) : err (failed st c) = true := by revert st c; decide
@[simp] theorem ecode_failed (st : Byte) (c : BitVec 3) : ecode (failed st c) = c := by revert st c; decide
@[simp] theorem wovr_failed (st : Byte) (c : BitVec 3) : wovr (failed st c) = wovr st := by revert st c; decide
@[simp] theorem bit7_failed (st : Byte) (c : BitVec 3) : bit7 (failed st c) = bit7 st := by revert st c; decide

@[simp] theorem busy_overrun (st : Byte) : busy (overrun st) = busy st := by revert st; decide
@[simp] theorem done_overrun (st : Byte) : done (overrun st) = done st := by revert st; decide
@[simp] theorem err_overrun (st : Byte) : err (overrun st) = err st := by revert st; decide
@[simp] theorem ecode_overrun (st : Byte) : ecode (overrun st) = ecode st := by revert st; decide
@[simp] theorem wovr_overrun (st : Byte) : wovr (overrun st) = true := by revert st; decide
@[simp] theorem bit7_overrun (st : Byte) : bit7 (overrun st) = bit7 st := by revert st; decide

@[simp] theorem busy_accepted : busy accepted = true := rfl
@[simp] theorem done_accepted : done accepted = false := rfl
@[simp] theorem err_accepted : err accepted = false := rfl
@[simp] theorem ecode_accepted : ecode accepted = 0#3 := rfl
@[simp] theorem wovr_accepted : wovr accepted = false := rfl
@[simp] theorem bit7_accepted : bit7 accepted = false := rfl

@[simp] theorem busy_zero : busy 0x00#8 = false := rfl
@[simp] theorem done_zero : done 0x00#8 = false := rfl
@[simp] theorem err_zero : err 0x00#8 = false := rfl
@[simp] theorem ecode_zero : ecode 0x00#8 = 0#3 := rfl
@[simp] theorem wovr_zero : wovr 0x00#8 = false := rfl
@[simp] theorem bit7_zero : bit7 0x00#8 = false := rfl

@[simp] theorem busy_visible (st : Byte) : busy (visible st) = busy st := by revert st; decide
@[simp] theorem wovr_visible (st : Byte) : wovr (visible st) = wovr st := by revert st; decide

/-- The three updates as the masks the spec's STATUS values suggest. -/
theorem completed_eq (st : Byte) : completed st = (st &&& 0xC0#8) ||| 0x02#8 := by revert st; decide
theorem failed_illegal_eq (st : Byte) : failed st (errorBits .illegal) = (st &&& 0xC0#8) ||| 0x0C#8 := by revert st; decide
theorem failed_divzero_eq (st : Byte) : failed st (errorBits .divzero) = (st &&& 0xC0#8) ||| 0x14#8 := by revert st; decide
theorem overrun_eq (st : Byte) : overrun st = st ||| 0x40#8 := by revert st; decide

end Sys2Proof.Machine.Status

namespace Sys2Proof.Machine

theorem complete_eq_doneWith (v : Byte) (s : State) : complete v s = Safety.doneWith v s := by
  simp [complete, Safety.doneWith, Status.completed_eq]

theorem raiseError_illegal (s : State) : raiseError .illegal s = Safety.illegalIn s := by
  simp [raiseError, Safety.illegalIn, Status.failed_illegal_eq]

theorem raiseError_divzero (s : State) : raiseError .divzero s = Safety.divzeroIn s := by
  simp [raiseError, Safety.divzeroIn, Status.failed_divzero_eq]

theorem errorBits_ne_zero (e : ErrorCode) : errorBits e ≠ 0#3 := by cases e <;> decide

end Sys2Proof.Machine
end

