-- ==== Sys2Proof/Laws/Memory.lean ====
section
/-! SUPPORT. The cells: what a store changes, and that it keeps the canonical form. -/

namespace Sys2Proof.Machine

theorem Memory.lookup_store_same (m : List Host.Cell) (addr : Nat) (v : Byte) :
    Memory.lookup (Memory.store m addr v) addr = some v := by
  induction m with
  | nil => simp [Memory.store, Memory.lookup]
  | cons c m ih =>
    obtain ⟨k, w⟩ := c
    simp only [Memory.store]
    split
    · simp [Memory.lookup]
    · split <;> simp [Memory.lookup, *]

theorem Memory.lookup_store_other (m : List Host.Cell) {addr other : Nat} (v : Byte) (h : other ≠ addr) :
    Memory.lookup (Memory.store m addr v) other = Memory.lookup m other := by
  induction m with
  | nil => simp [Memory.store, Memory.lookup, h]
  | cons c m ih =>
    obtain ⟨k, w⟩ := c
    simp only [Memory.store]
    split
    · simp [Memory.lookup, h]
    · split
      · next hk => subst hk; simp [Memory.lookup, h]
      · simp [Memory.lookup, ih]

theorem Memory.store_store (m : List Host.Cell) (addr : Nat) (v w : Byte) :
    Memory.store (Memory.store m addr v) addr w = Memory.store m addr w := by
  induction m with
  | nil => simp [Memory.store]
  | cons c m ih =>
    obtain ⟨k, u⟩ := c
    by_cases h1 : addr < k
    · simp [Memory.store, h1]
    · by_cases h2 : addr = k <;> simp [Memory.store, h1, h2, ih]

/-- Every cell after a store is the stored one or one of before. -/
theorem Memory.mem_store {m : List Host.Cell} {addr : Nat} {v : Byte} {c : Host.Cell}
    (h : c ∈ Memory.store m addr v) : c = (addr, v) ∨ c ∈ m := by
  induction m with
  | nil => simpa [Memory.store] using h
  | cons d m ih =>
    obtain ⟨k, w⟩ := d
    simp only [Memory.store] at h
    split at h
    · simpa using h
    · split at h
      · rcases List.mem_cons.1 h with h | h
        · exact .inl h
        · exact .inr (List.mem_cons_of_mem _ h)
      · rcases List.mem_cons.1 h with h | h
        · exact .inr (h ▸ List.mem_cons_self)
        · exact (ih h).imp_right (List.mem_cons_of_mem _)

theorem Memory.nil_wf : Memory.wf [] := List.Pairwise.nil

theorem Memory.store_wf {m : List Host.Cell} (h : Memory.wf m) (addr : Nat) (v : Byte) :
    Memory.wf (Memory.store m addr v) := by
  induction m with
  | nil => simp [Memory.store, Memory.wf]
  | cons c m ih =>
    obtain ⟨k, w⟩ := c
    obtain ⟨hk, hm⟩ := List.pairwise_cons.1 h
    simp only [Memory.store]
    split
    · next hlt =>
      refine List.pairwise_cons.2 ⟨fun d hd => ?_, h⟩
      rcases List.mem_cons.1 hd with rfl | hd
      · exact hlt
      · exact Nat.lt_trans hlt (hk d hd)
    · split
      · next heq => subst heq; exact List.pairwise_cons.2 ⟨hk, hm⟩
      · refine List.pairwise_cons.2 ⟨fun d hd => ?_, ih hm⟩
        rcases Memory.mem_store hd with rfl | hd
        · show k < addr
          omega
        · exact hk d hd

end Sys2Proof.Machine
end

