-- ==== Sys2Proof/Laws/PerInstr.lean ====
section
/-! SUPPORT. What holds of every instruction as syntax, one lemma per constructor. -/

namespace Sys2Proof.Laws.EncodedByItsRow

/-- A row of the opcode table covers the instruction's byte and stands for the instruction (30_encoding.md R71, R73). -/
def Statement (i : Instr) : Prop :=
  i.wf = true → ∃ row ∈ opcodeRows, row.covers (encode i) = true ∧ row.instr (encode i) = i

theorem of_row {i : Instr} (k : Nat) (row : OpcodeRow) (hk : opcodeRows[k]? = some row)
    (h : i.wf = true → row.covers (encode i) = true ∧ row.instr (encode i) = i) : Statement i :=
  fun hw => ⟨row, List.mem_of_getElem? hk, h hw⟩

theorem nop : Statement .nop := of_row 0 _ rfl fun _ => ⟨rfl, rfl⟩
theorem add : Statement .add := of_row 1 _ rfl fun _ => ⟨rfl, rfl⟩
theorem sub : Statement .sub := of_row 2 _ rfl fun _ => ⟨rfl, rfl⟩
theorem mul : Statement .mul := of_row 3 _ rfl fun _ => ⟨rfl, rfl⟩
theorem div : Statement .div := of_row 4 _ rfl fun _ => ⟨rfl, rfl⟩
theorem deg : Statement .deg := of_row 5 _ rfl fun _ => ⟨rfl, rfl⟩
theorem eval : Statement .eval := of_row 6 _ rfl fun _ => ⟨rfl, rfl⟩
theorem interp : Statement .interp := of_row 7 _ rfl fun _ => ⟨rfl, rfl⟩
theorem reserved08 (opc : Byte) : Statement (.reserved08 opc) := of_row 8 _ rfl fun h => ⟨h, rfl⟩
theorem reserved10 (opc : Byte) : Statement (.reserved10 opc) := of_row 9 _ rfl fun h => ⟨h, rfl⟩
theorem reserved20 (opc : Byte) : Statement (.reserved20 opc) := of_row 10 _ rfl fun h => ⟨h, rfl⟩
theorem reserved40 (opc : Byte) : Statement (.reserved40 opc) := of_row 11 _ rfl fun h => ⟨h, rfl⟩
theorem reserved80 (opc : Byte) : Statement (.reserved80 opc) := of_row 12 _ rfl fun h => ⟨h, rfl⟩

end Sys2Proof.Laws.EncodedByItsRow
end

