-- ==== Sys2Proof/Laws/State.lean ====
section
/-! SUPPORT. One lemma per field per update of State, true by rfl, so that no proof unfolds an update. -/

namespace Sys2Proof.Machine

/-! `complete(v)` writes R, STATUS and the phase (60_exceptions.md R142). -/

@[simp] theorem complete_a (v : Byte) (s : State) : (complete v s).a = s.a := rfl
@[simp] theorem complete_b (v : Byte) (s : State) : (complete v s).b = s.b := rfl
@[simp] theorem complete_r (v : Byte) (s : State) : (complete v s).r = v := rfl
@[simp] theorem complete_len (v : Byte) (s : State) : (complete v s).len = s.len := rfl
@[simp] theorem complete_npts (v : Byte) (s : State) : (complete v s).npts = s.npts := rfl
@[simp] theorem complete_status (v : Byte) (s : State) : (complete v s).status = Status.completed s.status := rfl
@[simp] theorem complete_phase (v : Byte) (s : State) : (complete v s).phase = .idle := rfl
@[simp] theorem complete_mem (v : Byte) (s : State) : (complete v s).mem = s.mem := rfl
@[simp] theorem complete_resets (v : Byte) (s : State) : (complete v s).resets = s.resets := rfl
@[simp] theorem complete_host (v : Byte) (s : State) : (complete v s).host = s.host := rfl
@[simp] theorem complete_events (v : Byte) (s : State) : (complete v s).events = s.events := rfl

/-! `raise Error(code)` writes STATUS and the phase (60_exceptions.md R143). -/

@[simp] theorem raiseError_a (e : ErrorCode) (s : State) : (raiseError e s).a = s.a := rfl
@[simp] theorem raiseError_b (e : ErrorCode) (s : State) : (raiseError e s).b = s.b := rfl
@[simp] theorem raiseError_r (e : ErrorCode) (s : State) : (raiseError e s).r = s.r := rfl
@[simp] theorem raiseError_len (e : ErrorCode) (s : State) : (raiseError e s).len = s.len := rfl
@[simp] theorem raiseError_npts (e : ErrorCode) (s : State) : (raiseError e s).npts = s.npts := rfl
@[simp] theorem raiseError_status (e : ErrorCode) (s : State) : (raiseError e s).status = Status.failed s.status (errorBits e) := rfl
@[simp] theorem raiseError_phase (e : ErrorCode) (s : State) : (raiseError e s).phase = .idle := rfl
@[simp] theorem raiseError_mem (e : ErrorCode) (s : State) : (raiseError e s).mem = s.mem := rfl
@[simp] theorem raiseError_resets (e : ErrorCode) (s : State) : (raiseError e s).resets = s.resets := rfl
@[simp] theorem raiseError_host (e : ErrorCode) (s : State) : (raiseError e s).host = s.host := rfl
@[simp] theorem raiseError_events (e : ErrorCode) (s : State) : (raiseError e s).events = s.events := rfl

/-! Acceptance writes the phase and STATUS (10_state.md R24). -/

@[simp] theorem accept_a (opc : Byte) (s : State) : (accept opc s).a = s.a := rfl
@[simp] theorem accept_b (opc : Byte) (s : State) : (accept opc s).b = s.b := rfl
@[simp] theorem accept_r (opc : Byte) (s : State) : (accept opc s).r = s.r := rfl
@[simp] theorem accept_len (opc : Byte) (s : State) : (accept opc s).len = s.len := rfl
@[simp] theorem accept_npts (opc : Byte) (s : State) : (accept opc s).npts = s.npts := rfl
@[simp] theorem accept_status (opc : Byte) (s : State) : (accept opc s).status = Status.accepted := rfl
@[simp] theorem accept_phase (opc : Byte) (s : State) : (accept opc s).phase = .busy opc := rfl
@[simp] theorem accept_mem (opc : Byte) (s : State) : (accept opc s).mem = s.mem := rfl
@[simp] theorem accept_resets (opc : Byte) (s : State) : (accept opc s).resets = s.resets := rfl
@[simp] theorem accept_host (opc : Byte) (s : State) : (accept opc s).host = s.host := rfl
@[simp] theorem accept_events (opc : Byte) (s : State) : (accept opc s).events = s.events := rfl

/-! A dropped write changes STATUS (20_memory.md R55). -/

@[simp] theorem dropWrite_a (s : State) : (dropWrite s).a = s.a := rfl
@[simp] theorem dropWrite_b (s : State) : (dropWrite s).b = s.b := rfl
@[simp] theorem dropWrite_r (s : State) : (dropWrite s).r = s.r := rfl
@[simp] theorem dropWrite_len (s : State) : (dropWrite s).len = s.len := rfl
@[simp] theorem dropWrite_npts (s : State) : (dropWrite s).npts = s.npts := rfl
@[simp] theorem dropWrite_status (s : State) : (dropWrite s).status = Status.overrun s.status := rfl
@[simp] theorem dropWrite_phase (s : State) : (dropWrite s).phase = s.phase := rfl
@[simp] theorem dropWrite_mem (s : State) : (dropWrite s).mem = s.mem := rfl
@[simp] theorem dropWrite_resets (s : State) : (dropWrite s).resets = s.resets := rfl
@[simp] theorem dropWrite_host (s : State) : (dropWrite s).host = s.host := rfl
@[simp] theorem dropWrite_events (s : State) : (dropWrite s).events = s.events := rfl

/-! The platform's reset (70_reset_and_hazards.md R160). -/

@[simp] theorem resetBlock_a (s : State) : (resetBlock s).a = 0x00#8 := rfl
@[simp] theorem resetBlock_b (s : State) : (resetBlock s).b = 0x00#8 := rfl
@[simp] theorem resetBlock_r (s : State) : (resetBlock s).r = 0x00#8 := rfl
@[simp] theorem resetBlock_len (s : State) : (resetBlock s).len = 0x00#8 := rfl
@[simp] theorem resetBlock_npts (s : State) : (resetBlock s).npts = 0x00#8 := rfl
@[simp] theorem resetBlock_status (s : State) : (resetBlock s).status = 0x00#8 := rfl
@[simp] theorem resetBlock_phase (s : State) : (resetBlock s).phase = .idle := rfl
@[simp] theorem resetBlock_mem (s : State) : (resetBlock s).mem = [] := rfl
@[simp] theorem resetBlock_resets (s : State) : (resetBlock s).resets = s.resets + 1 := rfl
@[simp] theorem resetBlock_host (s : State) : (resetBlock s).host = s.host := rfl
@[simp] theorem resetBlock_events (s : State) : (resetBlock s).events = s.events := rfl

/-! The host goes on to its next statement. -/

@[simp] theorem hostAdvance_a (s : State) : (hostAdvance s).a = s.a := rfl
@[simp] theorem hostAdvance_b (s : State) : (hostAdvance s).b = s.b := rfl
@[simp] theorem hostAdvance_r (s : State) : (hostAdvance s).r = s.r := rfl
@[simp] theorem hostAdvance_len (s : State) : (hostAdvance s).len = s.len := rfl
@[simp] theorem hostAdvance_npts (s : State) : (hostAdvance s).npts = s.npts := rfl
@[simp] theorem hostAdvance_status (s : State) : (hostAdvance s).status = s.status := rfl
@[simp] theorem hostAdvance_phase (s : State) : (hostAdvance s).phase = s.phase := rfl
@[simp] theorem hostAdvance_mem (s : State) : (hostAdvance s).mem = s.mem := rfl
@[simp] theorem hostAdvance_resets (s : State) : (hostAdvance s).resets = s.resets := rfl
@[simp] theorem hostAdvance_host (s : State) : (hostAdvance s).host = { s.host with pos := s.host.pos + 1 } := rfl
@[simp] theorem hostAdvance_events (s : State) : (hostAdvance s).events = s.events := rfl

/-! The host assigns a temporary. -/

@[simp] theorem hostAssign_a (t : Nat) (v : Byte) (s : State) : (hostAssign t v s).a = s.a := rfl
@[simp] theorem hostAssign_b (t : Nat) (v : Byte) (s : State) : (hostAssign t v s).b = s.b := rfl
@[simp] theorem hostAssign_r (t : Nat) (v : Byte) (s : State) : (hostAssign t v s).r = s.r := rfl
@[simp] theorem hostAssign_len (t : Nat) (v : Byte) (s : State) : (hostAssign t v s).len = s.len := rfl
@[simp] theorem hostAssign_npts (t : Nat) (v : Byte) (s : State) : (hostAssign t v s).npts = s.npts := rfl
@[simp] theorem hostAssign_status (t : Nat) (v : Byte) (s : State) : (hostAssign t v s).status = s.status := rfl
@[simp] theorem hostAssign_phase (t : Nat) (v : Byte) (s : State) : (hostAssign t v s).phase = s.phase := rfl
@[simp] theorem hostAssign_mem (t : Nat) (v : Byte) (s : State) : (hostAssign t v s).mem = s.mem := rfl
@[simp] theorem hostAssign_resets (t : Nat) (v : Byte) (s : State) : (hostAssign t v s).resets = s.resets := rfl
@[simp] theorem hostAssign_host (t : Nat) (v : Byte) (s : State) : (hostAssign t v s).host = { s.host with temps := Memory.store s.host.temps t v } := rfl
@[simp] theorem hostAssign_events (t : Nat) (v : Byte) (s : State) : (hostAssign t v s).events = s.events := rfl

/-! The host branches. -/

@[simp] theorem hostJump_a (pos : Nat) (s : State) : (hostJump pos s).a = s.a := rfl
@[simp] theorem hostJump_b (pos : Nat) (s : State) : (hostJump pos s).b = s.b := rfl
@[simp] theorem hostJump_r (pos : Nat) (s : State) : (hostJump pos s).r = s.r := rfl
@[simp] theorem hostJump_len (pos : Nat) (s : State) : (hostJump pos s).len = s.len := rfl
@[simp] theorem hostJump_npts (pos : Nat) (s : State) : (hostJump pos s).npts = s.npts := rfl
@[simp] theorem hostJump_status (pos : Nat) (s : State) : (hostJump pos s).status = s.status := rfl
@[simp] theorem hostJump_phase (pos : Nat) (s : State) : (hostJump pos s).phase = s.phase := rfl
@[simp] theorem hostJump_mem (pos : Nat) (s : State) : (hostJump pos s).mem = s.mem := rfl
@[simp] theorem hostJump_resets (pos : Nat) (s : State) : (hostJump pos s).resets = s.resets := rfl
@[simp] theorem hostJump_host (pos : Nat) (s : State) : (hostJump pos s).host = { s.host with pos := pos } := rfl
@[simp] theorem hostJump_events (pos : Nat) (s : State) : (hostJump pos s).events = s.events := rfl

/-! A buffer write changes the cells; the schedule moves on. -/

@[simp] theorem writeBuffer_a (s : State) (n : Nat) (v : Byte) : (writeBuffer s n v).a = s.a := rfl
@[simp] theorem writeBuffer_b (s : State) (n : Nat) (v : Byte) : (writeBuffer s n v).b = s.b := rfl
@[simp] theorem writeBuffer_r (s : State) (n : Nat) (v : Byte) : (writeBuffer s n v).r = s.r := rfl
@[simp] theorem writeBuffer_len (s : State) (n : Nat) (v : Byte) : (writeBuffer s n v).len = s.len := rfl
@[simp] theorem writeBuffer_npts (s : State) (n : Nat) (v : Byte) : (writeBuffer s n v).npts = s.npts := rfl
@[simp] theorem writeBuffer_status (s : State) (n : Nat) (v : Byte) : (writeBuffer s n v).status = s.status := rfl
@[simp] theorem writeBuffer_phase (s : State) (n : Nat) (v : Byte) : (writeBuffer s n v).phase = s.phase := rfl
@[simp] theorem writeBuffer_mem (s : State) (n : Nat) (v : Byte) : (writeBuffer s n v).mem = Memory.store s.mem n v := rfl
@[simp] theorem writeBuffer_resets (s : State) (n : Nat) (v : Byte) : (writeBuffer s n v).resets = s.resets := rfl
@[simp] theorem writeBuffer_host (s : State) (n : Nat) (v : Byte) : (writeBuffer s n v).host = s.host := rfl
@[simp] theorem writeBuffer_events (s : State) (n : Nat) (v : Byte) : (writeBuffer s n v).events = s.events := rfl

@[simp] theorem popEvent_a (s : State) : (Safety.popEvent s).a = s.a := rfl
@[simp] theorem popEvent_b (s : State) : (Safety.popEvent s).b = s.b := rfl
@[simp] theorem popEvent_r (s : State) : (Safety.popEvent s).r = s.r := rfl
@[simp] theorem popEvent_len (s : State) : (Safety.popEvent s).len = s.len := rfl
@[simp] theorem popEvent_npts (s : State) : (Safety.popEvent s).npts = s.npts := rfl
@[simp] theorem popEvent_status (s : State) : (Safety.popEvent s).status = s.status := rfl
@[simp] theorem popEvent_phase (s : State) : (Safety.popEvent s).phase = s.phase := rfl
@[simp] theorem popEvent_mem (s : State) : (Safety.popEvent s).mem = s.mem := rfl
@[simp] theorem popEvent_resets (s : State) : (Safety.popEvent s).resets = s.resets := rfl
@[simp] theorem popEvent_host (s : State) : (Safety.popEvent s).host = s.host := rfl
@[simp] theorem popEvent_events (s : State) : (Safety.popEvent s).events = s.events.tail := rfl

end Sys2Proof.Machine
end

