-- ==== Sys2Proof/Laws/Step.lean ====
section
/-! SUPPORT. What a command, a host write, a host statement and a step can do, each said once. -/

namespace Sys2Proof.Machine

open Sys2Proof.Safety

/-! ## Commands -/

theorem decode_total (opc : Byte) : ∃ i, decode opc = .ok i := by
  have h : ∀ o : Byte, (opcodeRows.find? fun row => row.covers o).isSome = true := by decide
  obtain ⟨row, hrow⟩ := Option.isSome_iff_exists.1 (h opc)
  exact ⟨row.instr opc, by simp [decode, hrow]⟩

/-- Every command ends in one of the two completions. -/
theorem exec_cases (i : Instr) (s : State) :
    (∃ v, exec i s = .next (complete v s)) ∨ (∃ e, exec i s = .next (raiseError e s)) := by
  cases i with
  | div =>
    simp only [exec, execDiv]
    split
    · exact .inr ⟨_, rfl⟩
    · exact .inl ⟨_, rfl⟩
  | interp =>
    simp only [exec, execInterp]
    split
    · exact .inr ⟨_, rfl⟩
    · exact .inl ⟨_, rfl⟩
  | reserved08 opc => exact .inr ⟨.illegal, rfl⟩
  | reserved10 opc => exact .inr ⟨.illegal, rfl⟩
  | reserved20 opc => exact .inr ⟨.illegal, rfl⟩
  | reserved40 opc => exact .inr ⟨.illegal, rfl⟩
  | reserved80 opc => exact .inr ⟨.illegal, rfl⟩
  | _ => exact .inl ⟨_, rfl⟩

/-- The same, of a given next state. -/
theorem exec_next {i : Instr} {s t : State} (h : exec i s = .next t) :
    (∃ v, t = complete v s) ∨ (∃ e, t = raiseError e s) := by
  rcases exec_cases i s with ⟨v, hv⟩ | ⟨e, he⟩
  · exact .inl ⟨v, by rw [hv] at h; injection h with h; exact h.symm⟩
  · exact .inr ⟨e, by rw [he] at h; injection h with h; exact h.symm⟩

/-! ## Host accesses -/

/-- What stands where, and its offset. -/
theorem locate_spec (off : Offset) :
    (locate off = .id ∧ off = 0x000#10) ∨ (locate off = .rev ∧ off = 0x001#10) ∨ (locate off = .cmd ∧ off = 0x002#10) ∨
    (locate off = .status ∧ off = 0x003#10) ∨ (locate off = .a ∧ off = 0x004#10) ∨ (locate off = .b ∧ off = 0x005#10) ∨
    (locate off = .r ∧ off = 0x006#10) ∨ (locate off = .len ∧ off = 0x007#10) ∨ (locate off = .npts ∧ off = 0x008#10) ∨
    (locate off = .reserved ∧ isBufferOffset off.toNat = false) ∨
    (∃ i, i < 255 ∧ locate off = .coef i ∧ off.toNat = Config.coefBase + i) ∨
    (∃ i, i < 255 ∧ locate off = .px i ∧ off.toNat = Config.pxBase + i) ∨
    (∃ i, i < 255 ∧ locate off = .py i ∧ off.toNat = Config.pyBase + i) := by
  by_cases h9 : off.toNat < 9
  · have hoff : off = 0x000#10 ∨ off = 0x001#10 ∨ off = 0x002#10 ∨ off = 0x003#10 ∨ off = 0x004#10 ∨ off = 0x005#10 ∨
        off = 0x006#10 ∨ off = 0x007#10 ∨ off = 0x008#10 := by bv_omega
    rcases hoff with rfl | rfl | rfl | rfl | rfl | rfl | rfl | rfl | rfl <;> decide
  · have hlt := off.isLt
    simp only [locate, Config.bufferEntries, Config.pxBase, Config.pyBase, Config.coefBase, isBufferOffset]
    by_cases h1 : off.toNat < 0x100
    · have : (namedRegisters[off.toNat]?).getD .reserved = .reserved := by
        simp [namedRegisters, List.getElem?_eq_none (show [Location.id, .rev, .cmd, .status, .a, .b, .r, .len, .npts].length ≤ off.toNat by simp; omega)]
      refine .inr (.inr (.inr (.inr (.inr (.inr (.inr (.inr (.inr (.inl ?_)))))))))
      simp [h1, this]
    · by_cases h2 : off.toNat % 0x100 < 255
      · refine .inr (.inr (.inr (.inr (.inr (.inr (.inr (.inr (.inr (.inr ?_)))))))))
        by_cases h3 : off.toNat < 0x200
        · exact .inl ⟨off.toNat % 0x100, h2, by simp [h1, h2, h3], by omega⟩
        · by_cases h4 : off.toNat < 0x300
          · exact .inr (.inl ⟨off.toNat % 0x100, h2, by simp [h1, h2, h3, h4], by omega⟩)
          · exact .inr (.inr ⟨off.toNat % 0x100, h2, by simp [h1, h2, h3, h4], by omega⟩)
      · refine .inr (.inr (.inr (.inr (.inr (.inr (.inr (.inr (.inr (.inl ?_)))))))))
        simp [h1, h2]

/-- The address map on the buffers' offsets. -/
theorem locate_buffer (off : Offset) (i : Nat) (hi : i < 255) :
    (off.toNat = Config.coefBase + i → locate off = .coef i) ∧ (off.toNat = Config.pxBase + i → locate off = .px i) ∧
    (off.toNat = Config.pyBase + i → locate off = .py i) := by
  refine ⟨fun h => ?_, fun h => ?_, fun h => ?_⟩ <;>
  · simp only [Config.coefBase, Config.pxBase, Config.pyBase] at h
    have hm : off.toNat % 0x100 = i := by omega
    simp only [locate, Config.bufferEntries, Config.pxBase, Config.pyBase, hm]
    rw [if_neg (by omega), if_pos (by omega)]
    first
      | rw [if_pos (by omega)]
      | rw [if_neg (by omega), if_pos (by omega)]
      | rw [if_neg (by omega), if_neg (by omega)]

@[simp] theorem locate_coef {i : Nat} (hi : i < 255) : locate (Off.coef i) = .coef i :=
  (locate_buffer _ i hi).1 (by simp only [Off.coef, Config.coefBase, BitVec.toNat_ofNat]; omega)

@[simp] theorem locate_px {i : Nat} (hi : i < 255) : locate (Off.px i) = .px i :=
  (locate_buffer _ i hi).2.1 (by simp only [Off.px, Config.pxBase, BitVec.toNat_ofNat]; omega)

@[simp] theorem locate_py {i : Nat} (hi : i < 255) : locate (Off.py i) = .py i :=
  (locate_buffer _ i hi).2.2 (by simp only [Off.py, Config.pyBase, BitVec.toNat_ofNat]; omega)

theorem hostWrite_busy {off : Offset} {v : Byte} {s : State} (h : Status.busy s.status = true) :
    hostWrite off v s = dropWrite s := by simp [hostWrite, h]

theorem hostWrite_idle {off : Offset} {v : Byte} {s : State} (h : Status.busy s.status = false) :
    hostWrite off v s = idleWrite off v s := by simp [hostWrite, h]

/-- A read sees the data registers, STATUS and the buffers only. -/
theorem hostRead_congr {off : Offset} {s t : State} (h : SameData s t) (hs : off = Off.status → s.status = t.status) :
    hostRead off s = hostRead off t := by
  obtain ⟨h1, h2, h3, h4, h5, h6, h7⟩ := h
  rcases locate_spec off with ⟨h, rfl⟩ | ⟨h, rfl⟩ | ⟨h, rfl⟩ | ⟨h, rfl⟩ | ⟨h, rfl⟩ | ⟨h, rfl⟩ | ⟨h, rfl⟩ | ⟨h, rfl⟩ |
    ⟨h, rfl⟩ | ⟨h, -⟩ | ⟨i, -, h, -⟩ | ⟨i, -, h, -⟩ | ⟨i, -, h, -⟩ <;>
  simp [hostRead, readBuffer, *]
  rw [hs rfl]

/-- A host write, once: dropped while BUSY; else an acceptance, an operand register, a buffer entry, or nothing. -/
theorem hostWrite_cases (off : Offset) (v : Byte) (s : State) :
    (Status.busy s.status = true ∧ hostWrite off v s = dropWrite s) ∨
    (Status.busy s.status = false ∧
      ((off = Off.cmd ∧ hostWrite off v s = accept v s) ∨
       (off = Off.a ∧ hostWrite off v s = { s with a := v }) ∨
       (off = Off.b ∧ hostWrite off v s = { s with b := v }) ∨
       (off = Off.len ∧ hostWrite off v s = { s with len := v }) ∨
       (off = Off.npts ∧ hostWrite off v s = { s with npts := v }) ∨
       (isBufferOffset off.toNat = true ∧ hostWrite off v s = writeBuffer s off.toNat v) ∨
       hostWrite off v s = s)) := by
  cases hb : Status.busy s.status with
  | true => exact .inl ⟨rfl, by simp [hostWrite, hb]⟩
  | false =>
    refine .inr ⟨rfl, ?_⟩
    have hw : hostWrite off v s = idleWrite off v s := by simp [hostWrite, hb]
    rw [hw]
    rcases locate_spec off with ⟨h, rfl⟩ | ⟨h, rfl⟩ | ⟨h, rfl⟩ | ⟨h, rfl⟩ | ⟨h, rfl⟩ | ⟨h, rfl⟩ | ⟨h, rfl⟩ | ⟨h, rfl⟩ |
      ⟨h, rfl⟩ | ⟨h, -⟩ | ⟨i, hi, h, ho⟩ | ⟨i, hi, h, ho⟩ | ⟨i, hi, h, ho⟩ <;> simp only [idleWrite, h]
    · simp
    · simp
    · exact .inl ⟨rfl, trivial⟩
    · simp
    · exact .inr (.inl ⟨rfl, trivial⟩)
    · exact .inr (.inr (.inl ⟨rfl, trivial⟩))
    · simp
    · exact .inr (.inr (.inr (.inl ⟨rfl, trivial⟩)))
    · exact .inr (.inr (.inr (.inr (.inl ⟨rfl, trivial⟩))))
    · simp
    all_goals
      refine .inr (.inr (.inr (.inr (.inr (.inl ⟨?_, by rw [ho]⟩)))))
      simp only [ho, isBufferOffset, Config.coefBase, Config.pxBase, Config.pyBase, Config.bufferEntries, Bool.and_eq_true, decide_eq_true_eq]
      omega

/-! ## Turns -/

/-- The unit's turn runs the pending command. -/
theorem step_unit {s : State} {opc : Byte} {i : Instr} (hp : s.phase = .busy opc) (hd : decode opc = .ok i)
    (h : UnitIsNext s) : step s = exec i (popEvent s) := by
  obtain ⟨a, b, r, len, npts, status, phase, mem, resets, host, events⟩ := s
  subst hp
  cases events with
  | nil => simp [step, nextTurn, unscheduledTurn, unitTurn, hd, popEvent]
  | cons e rest =>
    obtain rfl : e = .unitMoves := by simpa [UnitIsNext] using h
    simp [step, nextTurn, runEvent, unitTurn, hd, popEvent]

/-- The host's turn runs its next statement. -/
theorem step_host {s : State} (h : HostIsNext s) : step s = hostTurn (popEvent s) := by
  obtain ⟨a, b, r, len, npts, status, phase, mem, resets, host, events⟩ := s
  cases events with
  | nil =>
    obtain rfl : phase = .idle := by simpa [HostIsNext] using h
    rfl
  | cons e rest =>
    obtain rfl : e = .hostMoves := by simpa [HostIsNext] using h
    rfl

/-- A step that goes on is a reset, a command's completion, a host statement, or an idle turn. -/
theorem step_cases {s t : State} (h : step s = .next t) :
    (s.events.head? = some .reset ∧ t = resetBlock (popEvent s)) ∨
    (UnitIsNext s ∧ ∃ opc i, s.phase = .busy opc ∧ decode opc = .ok i ∧ exec i (popEvent s) = .next t) ∨
    (HostIsNext s ∧ ∃ st, nextStmt s = some st ∧ runStmt st (popEvent s) = .next t) ∨
    t = popEvent s := by
  obtain ⟨a, b, r, len, npts, status, phase, mem, resets, host, events⟩ := s
  have unit : ∀ {p : Phase} {es : List Event},
      unitTurn ⟨a, b, r, len, npts, status, p, mem, resets, host, es⟩ = .next t →
      (∃ opc i, p = .busy opc ∧ decode opc = .ok i ∧
        exec i ⟨a, b, r, len, npts, status, p, mem, resets, host, es⟩ = .next t) ∨
      t = ⟨a, b, r, len, npts, status, p, mem, resets, host, es⟩ := by
    intro p es h
    cases p with
    | idle => exact .inr (by simpa [unitTurn] using h.symm)
    | busy opc =>
      obtain ⟨i, hi⟩ := decode_total opc
      exact .inl ⟨opc, i, rfl, hi, by simpa [unitTurn, hi] using h⟩
  have host' : ∀ {p : Phase} {es : List Event},
      hostTurn ⟨a, b, r, len, npts, status, p, mem, resets, host, es⟩ = .next t →
      (∃ st, host.prog[host.pos]? = some st ∧
        runStmt st ⟨a, b, r, len, npts, status, p, mem, resets, host, es⟩ = .next t) ∨
      t = ⟨a, b, r, len, npts, status, p, mem, resets, host, es⟩ := by
    intro p es h
    simp only [hostTurn, nextStmt] at h
    split at h
    · next st hst => exact .inl ⟨st, hst, h⟩
    · exact .inr (by simpa using h.symm)
  cases events with
  | nil =>
    simp only [step, nextTurn, unscheduledTurn] at h
    cases phase with
    | busy opc =>
      rcases unit h with ⟨o, i, ho, hi, he⟩ | ht
      · exact .inr (.inl ⟨.inl rfl, o, i, ho, hi, he⟩)
      · exact .inr (.inr (.inr ht))
    | idle =>
      rcases host' h with ⟨st, hst, hr⟩ | ht
      · exact .inr (.inr (.inl ⟨.inr ⟨rfl, rfl⟩, st, hst, hr⟩))
      · exact .inr (.inr (.inr ht))
  | cons e rest =>
    simp only [step, nextTurn, runEvent] at h
    cases e with
    | hostMoves =>
      rcases host' h with ⟨st, hst, hr⟩ | ht
      · exact .inr (.inr (.inl ⟨.inl rfl, st, hst, hr⟩))
      · exact .inr (.inr (.inr ht))
    | unitMoves =>
      rcases unit h with ⟨o, i, ho, hi, he⟩ | ht
      · exact .inr (.inl ⟨.inr rfl, o, i, ho, hi, he⟩)
      · exact .inr (.inr (.inr ht))
    | reset => exact .inl ⟨rfl, (Host.Outcome.next.inj h).symm⟩
    | wideAccess => cases h
    | unserialisedMaster => cases h
    | undefinedReset => cases h

/-- A run goes on with its first step. -/
theorem run_next {k : Nat} {s t : State} (h : step s = .next t) :
    Host.Core.run core (k + 1) s = Host.Core.run core k t := by
  have hs : core.step s = .next t := h
  simp only [Host.Core.run, hs]

/-- A run whose first step stops has stopped. -/
theorem run_succ_next {k : Nat} {s u : State} (h : Host.Core.run core (k + 1) s = .next u) :
    ∃ t, step s = .next t ∧ Host.Core.run core k t = .next u := by
  cases hs : step s with
  | next t => exact ⟨t, rfl, run_next hs ▸ h⟩
  | fault f =>
    have hs' : core.step s = .fault f := hs
    simp [Host.Core.run, hs'] at h
  | refused f =>
    have hs' : core.step s = .refused f := hs
    simp [Host.Core.run, hs'] at h

/-- A host statement that goes on is a write, a read, a label or a branch. -/
theorem runStmt_cases {st : Stmt} {s t : State} (h : runStmt st s = .next t) :
    (∃ off v, st = .wr off v ∧ t = hostAdvance (hostWrite off (sourceValue s.host.temps v) s)) ∨
    (∃ off x, st = .rd off x ∧ t = hostAdvance (hostAssign x (hostRead off s) s)) ∨
    (∃ pos, t = hostJump pos s) := by
  cases st with
  | wr off v => exact .inl ⟨off, v, rfl, by simpa [runStmt] using h.symm⟩
  | rd off x => exact .inr (.inl ⟨off, x, rfl, by simpa [runStmt] using h.symm⟩)
  | label l => exact .inr (.inr ⟨s.host.pos + 1, (Host.Outcome.next.inj h).symm⟩)
  | bnz x bit l =>
    simp only [runStmt] at h
    split at h
    · split at h
      · next pos _ => exact .inr (.inr ⟨pos, by simpa using h.symm⟩)
      · cases h
    · exact .inr (.inr ⟨s.host.pos + 1, (Host.Outcome.next.inj h).symm⟩)

end Sys2Proof.Machine
end

