-- ==== Sys2Proof/Tests/Slice0.lean ====
section
/-! SUPPORT. The model's own tests (expected values from spec/95_test_vectors.md, by section), the well-formedness smoke test,
and a witness for the hypotheses of every obligation that has some. -/

namespace Sys2Proof.Tests

open Sys2Proof.Machine Sys2Proof.Safety

/-! ## Helpers -/

/-- Cells of COEF from index 0. -/
def coefCells (cs : List Byte) : List Host.Cell := cs.mapIdx fun i c => (Config.coefBase + i, c)

/-- Cells of PX and PY from index 0. -/
def pointCells (ps : List (Byte × Byte)) : List Host.Cell :=
  (ps.mapIdx fun i p => (Config.pxBase + i, p.1)) ++ ps.mapIdx fun i p => (Config.pyBase + i, p.2)

/-- A state in which an accepted command is about to complete, with A, B and R = 0x11. -/
def operandsAB (a b : Byte) : State := { State.reset with a := a, b := b, r := 0x11#8, status := 0x01#8 }

/-- The same, with a polynomial and its LEN. -/
def polynomial (cs : List Byte) (len a : Byte) : State :=
  { State.reset with mem := coefCells cs, len := len, a := a, r := 0x11#8, status := 0x01#8 }

/-- The same, with points and their NPTS. -/
def points (ps : List (Byte × Byte)) (npts : Byte) : State :=
  { State.reset with mem := pointCells ps, npts := npts, r := 0x11#8, status := 0x01#8 }

/-- R and STATUS after an outcome, as the host reads them. -/
def rAndStatus : Host.Outcome State Fault Refusal → Option (Byte × Byte)
  | .next t => some (hostRead Off.r t, hostRead Off.status t)
  | .fault _ => none
  | .refused _ => none

/-- A state with a pending command and a schedule. -/
def pendingCommand (opc : Byte) (es : List Event) : State := { accept opc State.reset with events := es }

/-- A state whose host runs a program from its start. -/
def hostRuns (prog : List Stmt) (es : List Event) : State := { State.reset with host := ⟨prog, 0, []⟩, events := es }

/-! ## Well-formedness: an ill-formed term for each check -/

theorem test_wf_reserved08_refuses_nop : (Instr.reserved08 0x07#8).wf = false := by decide
theorem test_wf_reserved10_refuses_row_below : (Instr.reserved10 0x0F#8).wf = false := by decide
theorem test_wf_reserved20_refuses_row_above : (Instr.reserved20 0x40#8).wf = false := by decide
theorem test_wf_reserved40_refuses_row_below : (Instr.reserved40 0x3F#8).wf = false := by decide
theorem test_wf_reserved80_refuses_row_below : (Instr.reserved80 0x7F#8).wf = false := by decide
/-- Program P2 of 95_test_vectors.md takes the y of its points from temporaries; here its first two points. -/
theorem test_setpts_takes_temporaries :
    pseudoSetpts [(.lit 1#8, .temp 1), (.lit 2#8, .temp 2)] =
      [.wr 0x200#10 (.lit 1#8), .wr 0x300#10 (.temp 1), .wr 0x201#10 (.lit 2#8), .wr 0x301#10 (.temp 2),
        .wr 0x008#10 (.lit 2#8)] := rfl
theorem test_setpoly_takes_temporaries :
    pseudoSetpoly [.temp 1, .lit 0x11#8] = [.wr 0x100#10 (.temp 1), .wr 0x101#10 (.lit 0x11#8), .wr 0x007#10 (.lit 2#8)] := rfl
theorem test_wf_program_refuses_missing_label : programWf [.bnz 0 0 1] = false := by decide
theorem test_wf_program_refuses_label_twice : programWf [.label 1, .label 1] = false := by decide
theorem test_wf_program_takes_exec : programWf (pseudoExec 1 0 (.lit 0x03#8)) = true := by decide

/-! ## Decoding: each row's byte written out from the encoding column of the opcode table -/

theorem test_decode_nop : decode 0b00000000#8 = .ok .nop := rfl
theorem test_decode_add : decode 0b00000001#8 = .ok .add := rfl
theorem test_decode_sub : decode 0b00000010#8 = .ok .sub := rfl
theorem test_decode_mul : decode 0b00000011#8 = .ok .mul := rfl
theorem test_decode_div : decode 0b00000100#8 = .ok .div := rfl
theorem test_decode_deg : decode 0b00000101#8 = .ok .deg := rfl
theorem test_decode_eval : decode 0b00000110#8 = .ok .eval := rfl
theorem test_decode_interp : decode 0b00000111#8 = .ok .interp := rfl
theorem test_decode_reserved08 : decode 0b00001111#8 = .ok (.reserved08 0x0F#8) := rfl
theorem test_decode_reserved10 : decode 0b00010000#8 = .ok (.reserved10 0x10#8) := rfl
theorem test_decode_reserved20 : decode 0b00111111#8 = .ok (.reserved20 0x3F#8) := rfl
theorem test_decode_reserved40 : decode 0b01000000#8 = .ok (.reserved40 0x40#8) := rfl
theorem test_decode_reserved80 : decode 0b10000000#8 = .ok (.reserved80 0x80#8) := rfl
theorem test_decode_refuses_no_byte : decodeBytes [] = .error .notOneByte := rfl
theorem test_decode_refuses_two_bytes : decodeTableWord 16 0x0303 = none := rfl

/-! ## Commands: R and STATUS -/

/-- 2.7: NOP with R = 0x11. -/
theorem test_nop_keeps_r : rAndStatus (exec .nop (operandsAB 0 0)) = some (0x11#8, 0x02#8) := by decide
/-- 2.1. -/
theorem test_add_53_CA : rAndStatus (exec .add (operandsAB 0x53#8 0xCA#8)) = some (0x99#8, 0x02#8) := by decide
/-- 2.1. -/
theorem test_sub_FF_0F : rAndStatus (exec .sub (operandsAB 0xFF#8 0x0F#8)) = some (0xF0#8, 0x02#8) := by decide
/-- 1.1. -/
theorem test_mul_B6_53 : rAndStatus (exec .mul (operandsAB 0xB6#8 0x53#8)) = some (0x36#8, 0x02#8) := by decide
/-- 2.2, the largest table index. -/
theorem test_mul_F6_F6 : rAndStatus (exec .mul (operandsAB 0xF6#8 0xF6#8)) = some (0x52#8, 0x02#8) := by decide
/-- 1.1. -/
theorem test_div_90_21 : rAndStatus (exec .div (operandsAB 90#8 21#8)) = some (189#8, 0x02#8) := by decide
/-- 2.3. -/
theorem test_div_by_zero : rAndStatus (exec .div (operandsAB 0x07#8 0x00#8)) = some (0x11#8, 0x14#8) := by decide
/-- 2.4. -/
theorem test_deg_seven : rAndStatus (exec .deg (polynomial [9, 0, 0, 0, 0, 0, 0, 4] 8#8 0)) = some (7#8, 0x02#8) := by
  decide
/-- 2.4: entries 2 and 3 are ignored. -/
theorem test_deg_ignores_above_len : rAndStatus (exec .deg (polynomial [3, 0, 7, 0] 2#8 0)) = some (0#8, 0x02#8) := by
  decide
/-- 1.3. -/
theorem test_eval_at_2 : rAndStatus (exec .eval (polynomial [1, 0, 2, 3] 4#8 2#8)) = some (17#8, 0x02#8) := by decide
/-- 2.5: 0x10 cubed. -/
theorem test_eval_cube : rAndStatus (exec .eval (polynomial [0, 0, 0, 1] 4#8 0x10#8)) = some (0xAB#8, 0x02#8) := by decide
/-- 1.4. -/
theorem test_interp_three_points :
    rAndStatus (exec .interp (points [(1, 43), (2, 22), (3, 86)] 3#8)) = some (107#8, 0x02#8) := by decide
/-- 2.6: a duplicate x. -/
theorem test_interp_duplicate_x :
    rAndStatus (exec .interp (points [(1, 1), (1, 2)] 2#8)) = some (0x11#8, 0x14#8) := by decide
/-- 2.7: 0x08 and 0xFF, accepted and completed. -/
theorem test_reserved_08 : rAndStatus (step (State.reset.withFetchWord 8 0x08)) = some (0x00#8, 0x0C#8) := by decide
theorem test_reserved_FF : rAndStatus (step (State.reset.withFetchWord 8 0xFF)) = some (0x00#8, 0x0C#8) := by decide

/-! ## Host accesses (2.7) -/

theorem test_busy_write_of_a_is_dropped :
    (hostWrite Off.a 0x33#8 (accept 0x03#8 State.reset)).status = 0x41#8 ∧
    (hostWrite Off.a 0x33#8 (accept 0x03#8 State.reset)).a = 0x00#8 := by decide
theorem test_overrun_survives_completion :
    rAndStatus (exec .mul { operandsAB 0x57#8 0x83#8 with status := 0x41#8 }) = some (0xC1#8, 0x42#8) := by decide
theorem test_reserved_offset_1FF_reads_zero : hostRead 0x1FF#10 (hostWrite 0x1FF#10 0x01#8 State.reset) = 0x00#8 := rfl
theorem test_write_of_id_has_no_effect : hostWrite Off.id 0x00#8 State.reset = State.reset := rfl
theorem test_coef_write_then_read : hostRead 0x1FE#10 (hostWrite 0x1FE#10 0x6B#8 State.reset) = 0x6B#8 := by decide
theorem test_transaction_coef : transactionWord (.write (Off.coef 0) 107#8) = 0x5006B#19 := by decide

/-! ## Witnesses: states and operands that meet the hypotheses of the obligations, clause by clause -/

theorem witness_EveryByteIsACommandOrIllegal :
    [Instr.nop, .add, .sub, .mul, .div, .deg, .eval, .interp][(0x07#8).toNat]? = some .interp ∧ 0x08 ≤ (0x08#8).toNat :=
  ⟨rfl, by decide⟩

theorem witness_DecodeOfEncodeIsTheCommand : (Instr.reserved08 0x0F#8).wf = true ∧ Instr.interp.wf = true := by decide

theorem witness_EncodeOfDecodeIsTheByte : decode 0xFF#8 = .ok (.reserved80 0xFF#8) := rfl

theorem witness_StepRunsThePendingCommand :
    ((pendingCommand 0xFF#8 [.unitMoves, .hostMoves]).phase = .busy 0xFF#8 ∧ decode 0xFF#8 = .ok (.reserved80 0xFF#8) ∧
      UnitIsNext (pendingCommand 0xFF#8 [.unitMoves, .hostMoves])) ∧ UnitIsNext (pendingCommand 0x04#8 []) ∧
    ((hostRuns [] [.unitMoves]).phase = .idle ∧ (hostRuns [] [.unitMoves]).events.head? = some .unitMoves) :=
  ⟨⟨rfl, rfl, .inr rfl⟩, .inl rfl, rfl, rfl⟩

theorem witness_StepRunsTheHostsNextStatement :
    (HostIsNext (hostRuns [.label 1] [.hostMoves]) ∧ nextStmt (hostRuns [.label 1] [.hostMoves]) = some (.label 1)) ∧
    HostIsNext (hostRuns [.label 1] []) ∧
    (HostIsNext (hostRuns [] [.hostMoves]) ∧ nextStmt (hostRuns [] [.hostMoves]) = none) :=
  ⟨⟨.inl rfl, rfl⟩, .inr ⟨rfl, rfl⟩, .inl rfl, rfl⟩

theorem witness_PlacedTableWordRunsNext : decodeTableWord 8 0xFF = some (.reserved80 0xFF#8) := rfl

theorem witness_NopCompletesAndKeepsR : (operandsAB 0 0).r = 0x11#8 ∧ (operandsAB 0 0).status = 0x01#8 := ⟨rfl, rfl⟩

/-- The operand clauses of ADD, SUB, MUL and DIV, each on A and B as the clause asks. -/
theorem witness_FieldCommandClauses :
    (operandsAB 0xAA#8 0xAA#8).a = (operandsAB 0xAA#8 0xAA#8).b ∧ (operandsAB 0xAA#8 0xAA#8).b ≠ 0x00#8 ∧
    (operandsAB 0x00#8 0x7F#8).a = 0x00#8 ∧ (operandsAB 0x00#8 0x7F#8).b ≠ 0x00#8 ∧
    (operandsAB 0x00#8 0x00#8).b = 0x00#8 ∧ (operandsAB 0xAB#8 0x01#8).b = 0x01#8 ∧ (operandsAB 0x01#8 0xAB#8).a = 0x01#8 ∧
    ((operandsAB 0x53#8 0xCA#8).a = 0x53#8 ∧ (operandsAB 0x53#8 0xCA#8).b = 0xCA#8) ∧
    ((operandsAB 0xFF#8 0x0F#8).a = 0xFF#8 ∧ (operandsAB 0xFF#8 0x0F#8).b = 0x0F#8) ∧
    ((operandsAB 0xF6#8 0xF6#8).a = 0xF6#8 ∧ (operandsAB 0xF6#8 0xF6#8).b = 0xF6#8) ∧
    ((operandsAB 90#8 21#8).a = 90#8 ∧ (operandsAB 90#8 21#8).b = 21#8) := by decide

theorem witness_DegWritesTheDegreeIndex :
    IsDegree (polynomial [1, 2, 0] 3#8 0) 1 ∧ IsDegree (polynomial [5] 1#8 0) 0 ∧
    (polynomial [] 0#8 0).len = 0#8 ∧ (polynomial [5] 1#8 0).len = 1#8 ∧
    ((polynomial [1, 2, 0] 3#8 0).len = 3#8 ∧ (polynomial [1, 2, 0] 3#8 0).coef 0 = 1#8 ∧
      (polynomial [1, 2, 0] 3#8 0).coef 1 = 2#8 ∧ (polynomial [1, 2, 0] 3#8 0).coef 2 = 0#8) := by
  refine ⟨⟨fun i h1 h2 => ?_, .inr ⟨by decide, by decide⟩⟩, ⟨fun i h1 h2 => ?_, .inl rfl⟩, by decide, by decide, by decide⟩
  · obtain rfl : i = 2 := by
      have : (polynomial [1, 2, 0] 3#8 0).len.toNat = 3 := rfl
      omega
    decide
  · have : (polynomial [5] 1#8 0).len.toNat = 1 := rfl
    omega

theorem witness_EvalRunsHornersRecurrence :
    (polynomial [] 0#8 7#8).len = 0#8 ∧ (polynomial [0x2A] 1#8 0x99#8).len = 1#8 ∧
    ((polynomial [1, 0, 2, 3] 4#8 0#8).len ≠ 0#8 ∧ (polynomial [1, 0, 2, 3] 4#8 0#8).a = 0x00#8) ∧
    (polynomial [1, 0, 2, 3] 4#8 1#8).a = 0x01#8 ∧
    ((polynomial [7] 1#8 2#8).a = (polynomial [7, 0] 2#8 2#8).a ∧
      (polynomial [7] 1#8 2#8).len.toNat ≤ (polynomial [7, 0] 2#8 2#8).len.toNat ∧
      (polynomial [7, 0] 2#8 2#8).coef 0 = (polynomial [7] 1#8 2#8).coef 0 ∧
      (polynomial [7, 0] 2#8 2#8).coef 1 = 0x00#8) ∧
    ((polynomial [1, 0, 2, 3] 4#8 2#8).len = 4#8 ∧ (polynomial [1, 0, 2, 3] 4#8 2#8).coef 0 = 1#8 ∧
      (polynomial [1, 0, 2, 3] 4#8 2#8).coef 1 = 0#8 ∧ (polynomial [1, 0, 2, 3] 4#8 2#8).coef 2 = 2#8 ∧
      (polynomial [1, 0, 2, 3] 4#8 2#8).coef 3 = 3#8 ∧ (polynomial [1, 0, 2, 3] 4#8 2#8).a = 2#8) := by decide

/-- Distinct and repeated x are decided by the command's own first loop. -/
theorem distinctX_of_repeatedX {s : State} (h : repeatedX s.npts.toNat s.px = false) : DistinctX s := by
  intro i j hi hj hij hx
  have := (repeatedX_iff s.npts.toNat s.px).2 ⟨i, j, hi, hj, hij, hx⟩
  simp [h] at this

theorem witness_InterpRunsLagrangeAtZeroOrRaisesDivzero :
    ¬ DistinctX (points [(1, 1), (1, 2)] 2#8) ∧ DistinctX (points [(1, 80), (2, 90), (3, 20)] 3#8) ∧
    (points [] 0#8).npts = 0#8 ∧ (points [(5, 0x77)] 1#8).npts = 1#8 ∧
    (DistinctX (points [(0, 9), (1, 3)] 2#8) ∧ 0 < (points [(0, 9), (1, 3)] 2#8).npts.toNat ∧
      (points [(0, 9), (1, 3)] 2#8).px 0 = 0x00#8) ∧
    ((points [(1, 80), (2, 90), (3, 20)] 3#8).npts = 3#8 ∧ (points [(1, 80), (2, 90), (3, 20)] 3#8).px 0 = 1#8 ∧
      (points [(1, 80), (2, 90), (3, 20)] 3#8).py 0 = 80#8 ∧ (points [(1, 80), (2, 90), (3, 20)] 3#8).px 1 = 2#8 ∧
      (points [(1, 80), (2, 90), (3, 20)] 3#8).py 1 = 90#8 ∧ (points [(1, 80), (2, 90), (3, 20)] 3#8).px 2 = 3#8 ∧
      (points [(1, 80), (2, 90), (3, 20)] 3#8).py 2 = 20#8) := by
  refine ⟨fun h => ?_, distinctX_of_repeatedX (by decide), rfl, rfl,
    ⟨distinctX_of_repeatedX (by decide), by decide, by decide⟩, by decide⟩
  exact h 0 1 (by decide) (by decide) (by decide) (by decide)

theorem witness_ReservedOpcodesRaiseIllegal : 0x08 ≤ (0x08#8).toNat ∧ 0x08 ≤ (0xFF#8).toNat := by decide

theorem witness_CompletionStatusClauses :
    (operandsAB 0 0).status = 0x01#8 ∧ ({ operandsAB 0 0 with status := 0x41#8 } : State).status = 0x41#8 := ⟨rfl, rfl⟩

/-- An `exec` that answers a next state, for the obligations about every such: a completion and an error. -/
theorem witness_ExecAnswersNext :
    (∃ t, exec .add (operandsAB 1 2) = .next t) ∧ (∃ t, exec .div (operandsAB 1 0) = .next t ∧ Status.err t.status = true) ∧
    Instr.div.wf = true :=
  ⟨⟨_, rfl⟩, ⟨_, rfl, by decide⟩, rfl⟩

theorem witness_CommandsReadOnlyTheirOperands :
    ∃ t', exec .deg (polynomial [1, 2] 2#8 5#8) = .next t' ∧ (polynomial [1, 2] 2#8 5#8).len = (polynomial [1, 2, 9] 2#8 0).len ∧
      ∀ k, k < 2 → (polynomial [1, 2] 2#8 5#8).coef k = (polynomial [1, 2, 9] 2#8 0).coef k :=
  ⟨_, rfl, rfl, by decide⟩

/-- The ends of the ranges of the address map. -/
theorem witness_AddressMapRanges :
    locate 0x009#10 = .reserved ∧ locate 0x0FF#10 = .reserved ∧ locate 0x100#10 = .coef 0 ∧ locate 0x1FE#10 = .coef 254 ∧
    locate 0x200#10 = .px 0 ∧ locate 0x2FE#10 = .px 254 ∧ locate 0x300#10 = .py 0 ∧ locate 0x3FE#10 = .py 254 := by decide

theorem witness_HostReadReturnsTheValueAndChangesNothing :
    HostIsNext (hostRuns [.rd Off.status 0] []) ∧
    nextStmt (hostRuns [.rd Off.status 0] []) = some (.rd Off.status 0) ∧ locate 0x3FF#10 = .reserved :=
  ⟨.inr ⟨rfl, rfl⟩, rfl, by decide⟩

/-- States with BUSY = 0 and BUSY = 1, for the obligations about host writes. -/
theorem witness_BusyAndIdleWrites :
    Status.busy State.reset.status = false ∧ Status.busy (accept 0x00#8 State.reset).status = true ∧
    isBufferOffset (0x3FE#10).toNat = true ∧ Off.npts ∈ [Off.a, Off.b, Off.len, Off.npts] ∧ Off.r ≠ Off.cmd ∧
    Off.r ≠ Off.status ∧ (decode 0x00#8 = .ok .nop ∧ UnitIsNext State.reset) :=
  ⟨rfl, rfl, by decide, by decide, by decide, by decide, rfl, .inl rfl⟩

theorem witness_OffsetsStandAtBasePlusOffset :
    offsetAt (platformAddress 0x3FF#10) = some 0x3FF#10 ∧ Config.base + 0x3FF < Config.base + 0x400 := by
  refine ⟨?_, Nat.add_lt_add_left (by decide) _⟩
  have h : Config.base ≤ Config.base + (0x3FF#10).toNat ∧ Config.base + (0x3FF#10).toNat < Config.base + 0x400 :=
    ⟨Nat.le_add_right _ _, Nat.add_lt_add_left (by decide) _⟩
  unfold offsetAt platformAddress
  rw [if_pos h, Nat.add_sub_cancel_left]
  rfl

theorem witness_HostStatementsReadWriteAndBranch :
    Memory.lookup ({ hostRuns [.label 1] [] with host := ⟨[.label 1], 0, [(0, 0x01#8)]⟩ } : State).host.temps 0 = some 0x01#8 ∧
    (tempValue [(0, 0x02#8)] 0).getLsbD (0 : Fin 8) = false ∧ (tempValue [(0, 0x80#8)] 0).getLsbD (7 : Fin 8) = true ∧
    labelPosition 1 [.label 1] = some 0 := by decide

theorem witness_ResetStateMeetsTheInvariant : Inv State.reset := by
  constructor <;> decide

theorem witness_ExecPseudoRunsTheCommandAndWaits :
    (Inv (hostRuns (pseudoExec 1 0 (.lit 0x04#8)) []) ∧ (hostRuns (pseudoExec 1 0 (.lit 0x04#8)) []).phase = .idle ∧
      (hostRuns (pseudoExec 1 0 (.lit 0x04#8)) []).events = [] ∧ decode (sourceValue [] (.lit 0x04#8)) = .ok .div ∧
      ∀ k, k < 4 → (hostRuns (pseudoExec 1 0 (.lit 0x04#8)) []).host.prog[0 + k]? = (pseudoExec 1 0 (.lit 0x04#8))[k]?) ∧
    decode (sourceValue [(7, 0x07#8)] (.temp 7)) = .ok .interp :=
  ⟨⟨by constructor <;> decide, rfl, rfl, rfl, fun k _ => by rw [Nat.zero_add]; rfl⟩, rfl⟩

theorem witness_ResetEventAbandonsTheCommand :
    (pendingCommand 0x07#8 [.reset]).events.head? = some .reset ∧ (pendingCommand 0x07#8 [.reset]).phase = .busy 0x07#8 :=
  ⟨rfl, rfl⟩

theorem witness_UnwrittenEntriesKeepTheirDraw :
    ∃ t, Memory.lookup State.reset.mem 0x100 = none ∧ step State.reset = .next t ∧ t.resets = State.reset.resets :=
  ⟨_, rfl, rfl, rfl⟩

theorem witness_OnlyAHostWriteChangesAnOperand :
    ∃ t, step (hostRuns [.wr Off.a (.lit 0x5A#8)] []) = .next t ∧ t.resets = 0 ∧ Off.a ≠ Off.status ∧ Off.a ≠ Off.r ∧
      hostRead Off.a t ≠ hostRead Off.a (hostRuns [.wr Off.a (.lit 0x5A#8)] []) :=
  ⟨_, rfl, rfl, by decide, by decide, by decide⟩

theorem witness_OnlyASuccessfulCompletionWritesR :
    ∃ t, step { pendingCommand 0x01#8 [] with a := 0x01#8 } = .next t ∧ t.resets = 0 ∧ t.r ≠ 0x00#8 :=
  ⟨_, rfl, rfl, by decide⟩

theorem witness_BusyIsSetByAcceptanceAndClearedByCompletion :
    (∃ t, Inv (hostRuns [.wr Off.cmd (.lit 0x03#8)] []) ∧ step (hostRuns [.wr Off.cmd (.lit 0x03#8)] []) = .next t ∧
      Status.busy (hostRuns [.wr Off.cmd (.lit 0x03#8)] []).status = false ∧ Status.busy t.status = true) ∧
    (∃ t, Inv (pendingCommand 0x03#8 []) ∧ step (pendingCommand 0x03#8 []) = .next t ∧
      Status.busy (pendingCommand 0x03#8 []).status = true ∧ Status.busy t.status = false) ∧
    (∃ t, step (pendingCommand 0x03#8 [.reset]) = .next t ∧ Status.busy t.status = false) :=
  ⟨⟨_, by constructor <;> decide, rfl, rfl, rfl⟩, ⟨_, by constructor <;> decide, rfl, rfl, by decide⟩, _, rfl, rfl⟩

theorem witness_WovrIsStickyUntilAcceptanceOrReset :
    ∃ t, step { hostRuns [.wr Off.cmd (.lit 0x00#8)] [] with status := 0x42#8 } = .next t ∧
      Status.wovr 0x42#8 = true ∧ Status.wovr t.status = false :=
  ⟨_, rfl, rfl, rfl⟩

theorem witness_ProtocolKeepersNeverSeeWovr :
    Status.wovr State.reset.status = false ∧
    (∀ j u, j < 1 → Host.Core.run core j State.reset = .next u → Status.busy u.status = true →
      ∀ off src, nextStmt u ≠ some (.wr off src)) ∧
    ∃ t, Host.Core.run core 1 State.reset = .next t := by
  refine ⟨rfl, fun j u hj hr hb => ?_, _, rfl⟩
  obtain rfl : j = 0 := by omega
  injection hr with hr
  subst hr
  exact absurd hb (by decide)

theorem witness_OnlyTheThreeUndefinedSituationsAreRefused :
    (hostRuns [] [.wideAccess]).events.head? = some .wideAccess ∧
    (hostRuns [] [.unserialisedMaster]).events.head? = some .unserialisedMaster ∧
    (hostRuns [] [.undefinedReset]).events.head? = some .undefinedReset ∧
    step (hostRuns [] [.wideAccess]) = .refused .wideAccess := ⟨rfl, rfl, rfl, rfl⟩

theorem witness_OnlyAMissingLabelFaults :
    step { State.reset with host := ⟨[.bnz 0 0 1], 0, [(0, 0x01#8)]⟩ } = .fault .missingLabel := rfl

theorem witness_EveryStepKeepsTheInvariant :
    ∃ t, Inv (pendingCommand 0x04#8 [.unitMoves]) ∧ step (pendingCommand 0x04#8 [.unitMoves]) = .next t ∧
      t.phase = .idle :=
  ⟨_, by constructor <;> decide, rfl, rfl⟩

theorem witness_StatusInvariantsHoldInEveryReachableState :
    ∃ t, Host.Core.run core 1 { State.reset with host := ⟨[.wr Off.cmd (.lit 0x04#8)], 0, []⟩, events := [.hostMoves] } = .next t ∧
      Status.busy t.status = true :=
  ⟨_, rfl, rfl⟩

theorem witness_AcceptedCommandsCompleteOnTheirOperands :
    Inv (pendingCommand 0x03#8 [.hostMoves, .unitMoves]) ∧ (pendingCommand 0x03#8 [.hostMoves, .unitMoves]).phase = .busy 0x03#8 ∧
    AgentsOnly (pendingCommand 0x03#8 [.hostMoves, .unitMoves]) ∧
    programWf (pendingCommand 0x03#8 [.hostMoves, .unitMoves]).host.prog = true :=
  ⟨by constructor <;> decide, rfl, fun e he => by simpa [pendingCommand] using he, rfl⟩

theorem witness_FieldClauses :
    (0x00#8 : Byte) = 0x00#8 ∧ (0xF6#8 : Byte) ≠ 0x00#8 ∧ gmul 0x53#8 0xCA#8 = 0x01#8 ∧ gmul 0x00#8 0x35#8 = 0x00#8 := by decide

/-- Section 2.6's points of [7, 3], which INTERP recovers; and one point that EVAL of [7] computes. -/
theorem witness_InterpRecoversTheConstantTerm :
    (1 ≤ (points [(1, 4), (2, 1)] 2#8).npts.toNat ∧ DistinctX (points [(1, 4), (2, 1)] 2#8) ∧
      ∀ i, i < 2 → polyValue (fun k => if k = 0 then 7#8 else 3#8) ((points [(1, 4), (2, 1)] 2#8).px i) 2 =
        (points [(1, 4), (2, 1)] 2#8).py i) ∧
    (DistinctX (points [(5, 7)] 1#8) ∧ (points [(5, 7)] 1#8).px 0 ≠ 0x00#8 ∧
      ∃ u, (polynomial [7] 1#8 5#8).a = (points [(5, 7)] 1#8).px 0 ∧ exec .eval (polynomial [7] 1#8 5#8) = .next u ∧
        u.r = (points [(5, 7)] 1#8).py 0) :=
  ⟨⟨by decide, distinctX_of_repeatedX (by decide), by decide⟩, distinctX_of_repeatedX (by decide), by decide, _, rfl, rfl, by decide⟩

theorem witness_InterpDoesNotDependOnAnyOrder :
    (points [(1, 4), (2, 1)] 2#8).npts = (points [(2, 1), (1, 4)] 2#8).npts ∧ DistinctX (points [(1, 4), (2, 1)] 2#8) ∧
    (∀ i, i < 2 → 1 - i < 2) ∧ (∀ i j, i < 2 → j < 2 → 1 - i = 1 - j → i = j) ∧
    (∀ i, i < 2 → (points [(2, 1), (1, 4)] 2#8).px i = (points [(1, 4), (2, 1)] 2#8).px (1 - i) ∧
      (points [(2, 1), (1, 4)] 2#8).py i = (points [(1, 4), (2, 1)] 2#8).py (1 - i)) ∧
    [1, 0].Perm (List.range 2) :=
  ⟨rfl, distinctX_of_repeatedX (by decide), by omega, by omega, by decide, List.Perm.swap 0 1 []⟩

end Sys2Proof.Tests
end

section
/-! SUPPORT. The family 10_state.md: what a step does to STATUS, R and the buffers, the invariant, and the ROMs; and the proofs
of that family's obligations. -/

namespace Sys2Proof.Safety

open Sys2Proof.Machine

/-! ## Host writes by what they can touch -/

/-- A host write is dropped, is an acceptance, stores a buffer entry, or at most writes an operand register. -/
theorem hostWrite_kinds (off : Offset) (v : Byte) (s : State) :
    (Status.busy s.status = true ∧ hostWrite off v s = dropWrite s) ∨
    (Status.busy s.status = false ∧ off = Off.cmd ∧ hostWrite off v s = accept v s) ∨
    (Status.busy s.status = false ∧ isBufferOffset off.toNat = true ∧ hostWrite off v s = writeBuffer s off.toNat v) ∨
    (∃ a b len npts, hostWrite off v s = { s with a := a, b := b, len := len, npts := npts }) := by
  rcases hostWrite_cases off v s with
    hd | ⟨hb, hc | ⟨-, hw⟩ | ⟨-, hw⟩ | ⟨-, hw⟩ | ⟨-, hw⟩ | hm | hw⟩
  · exact .inl hd
  · exact .inr (.inl ⟨hb, hc⟩)
  · exact .inr (.inr (.inr ⟨_, _, _, _, hw⟩))
  · exact .inr (.inr (.inr ⟨_, _, _, _, hw⟩))
  · exact .inr (.inr (.inr ⟨_, _, _, _, hw⟩))
  · exact .inr (.inr (.inr ⟨_, _, _, _, hw⟩))
  · exact .inr (.inr (.inl ⟨hb, hm⟩))
  · exact .inr (.inr (.inr ⟨_, _, _, _, hw⟩))

/-! ## STATUS beside the phase -/

/-- The STATUS clauses of `Inv`, of a STATUS byte and the phase it stands beside (10_state.md R41, R43). -/
structure StatusInv (st : Byte) (p : Phase) : Prop where
  busy_phase : Status.busy st = true ↔ p ≠ .idle
  busy_quiet : Status.busy st = true → Status.done st = false ∧ Status.err st = false ∧ Status.ecode st = 0#3
  done_err : ¬ (Status.done st = true ∧ Status.err st = true)
  err_ecode : Status.err st = false ↔ Status.ecode st = 0#3
  ecode_known : Status.ecode st = 0#3 ∨ Status.ecode st = 1#3 ∨ Status.ecode st = 2#3
  bit7 : Status.bit7 st = false

theorem Inv.statusInv {s : State} (h : Inv s) : StatusInv s.status s.phase where
  busy_phase := h.busy_phase
  busy_quiet := h.busy_quiet
  done_err := h.done_err
  err_ecode := h.err_ecode
  ecode_known := h.ecode_known
  bit7 := h.bit7

theorem StatusInv.zero_idle : StatusInv 0x00#8 .idle := by
  constructor <;> simp

theorem StatusInv.accepted_busy (opc : Byte) : StatusInv Status.accepted (.busy opc) := by
  constructor <;> simp

theorem StatusInv.completed {st : Byte} {p : Phase} (h : StatusInv st p) : StatusInv (Status.completed st) .idle := by
  constructor <;> simp [h.bit7]

theorem StatusInv.failed {st : Byte} {p : Phase} (h : StatusInv st p) (e : ErrorCode) :
    StatusInv (Status.failed st (errorBits e)) .idle := by
  cases e <;> constructor <;> simp [errorBits, h.bit7]

theorem StatusInv.overrun {st : Byte} {p : Phase} (h : StatusInv st p) : StatusInv (Status.overrun st) p where
  busy_phase := by simpa using h.busy_phase
  busy_quiet := by simpa using h.busy_quiet
  done_err := by simpa using h.done_err
  err_ecode := by simpa using h.err_ecode
  ecode_known := by simpa using h.ecode_known
  bit7 := by simpa using h.bit7

theorem StatusInv.ecode_le_two {st : Byte} {p : Phase} (h : StatusInv st p) : (Status.ecode st).toNat ≤ 2 := by
  rcases h.ecode_known with he | he | he <;> simp [he]

/-! ## The invariant after each operation -/

/-- The invariant is one of the cells and one of STATUS beside the phase. -/
theorem inv_of_parts {t : State} (hmem : Memory.wf t.mem) (hbuf : ∀ c ∈ t.mem, isBufferOffset c.1 = true)
    (htemps : Memory.wf t.host.temps) (hst : StatusInv t.status t.phase) : Inv t where
  mem_wf := hmem
  mem_buffers := hbuf
  temps_wf := htemps
  busy_phase := hst.busy_phase
  busy_quiet := hst.busy_quiet
  done_err := hst.done_err
  err_ecode := hst.err_ecode
  ecode_known := hst.ecode_known
  bit7 := hst.bit7

/-- An operation that stores no cell owes the STATUS part only. -/
theorem Inv.of_same_cells {s t : State} (h : Inv s) (hmem : t.mem = s.mem) (htemps : t.host.temps = s.host.temps)
    (hst : StatusInv t.status t.phase) : Inv t :=
  inv_of_parts (hmem ▸ h.mem_wf) (hmem ▸ h.mem_buffers) (htemps ▸ h.temps_wf) hst

/-- A block as reset leaves it meets the invariant, whatever its host runs. -/
theorem inv_of_blank {t : State} (hmem : t.mem = []) (htemps : Memory.wf t.host.temps) (hst : t.status = 0x00#8)
    (hp : t.phase = .idle) : Inv t :=
  inv_of_parts (hmem ▸ Memory.nil_wf) (by simp [hmem]) htemps (by rw [hst, hp]; exact .zero_idle)

theorem Inv.popEvent {s : State} (h : Inv s) : Inv (popEvent s) := h.of_same_cells rfl rfl h.statusInv

theorem Inv.resetBlock {s : State} (h : Inv s) : Inv (resetBlock s) := inv_of_blank rfl h.temps_wf rfl rfl

theorem Inv.hostAdvance {s : State} (h : Inv s) : Inv (hostAdvance s) := h.of_same_cells rfl rfl h.statusInv

theorem Inv.hostJump {s : State} (h : Inv s) (pos : Nat) : Inv (hostJump pos s) := h.of_same_cells rfl rfl h.statusInv

theorem Inv.hostAssign {s : State} (h : Inv s) (x : Nat) (v : Byte) : Inv (hostAssign x v s) :=
  { h with temps_wf := Memory.store_wf h.temps_wf x v }

theorem Inv.writeBuffer {s : State} (h : Inv s) {n : Nat} (hn : isBufferOffset n = true) (v : Byte) :
    Inv (writeBuffer s n v) :=
  { h with
    mem_wf := Memory.store_wf h.mem_wf n v
    mem_buffers := fun c hc => by
      rcases Memory.mem_store hc with rfl | hc
      · exact hn
      · exact h.mem_buffers c hc }

theorem Inv.hostWrite {s : State} (h : Inv s) (off : Offset) (v : Byte) : Inv (hostWrite off v s) := by
  rcases hostWrite_kinds off v s with ⟨-, hw⟩ | ⟨-, -, hw⟩ | ⟨-, hn, hw⟩ | ⟨a, b, len, npts, hw⟩ <;> rw [hw]
  · exact h.of_same_cells rfl rfl h.statusInv.overrun
  · exact h.of_same_cells rfl rfl (.accepted_busy v)
  · exact h.writeBuffer hn v
  · exact h.of_same_cells rfl rfl h.statusInv

theorem exec_keeps_inv {i : Instr} {s t : State} (h : Inv s) (he : exec i s = .next t) : Inv t := by
  rcases exec_next he with ⟨v, rfl⟩ | ⟨e, rfl⟩
  · exact h.of_same_cells rfl rfl h.statusInv.completed
  · exact h.of_same_cells rfl rfl (h.statusInv.failed e)

theorem runStmt_keeps_inv {st : Stmt} {s t : State} (h : Inv s) (hr : runStmt st s = .next t) : Inv t := by
  rcases runStmt_cases hr with ⟨off, v, -, rfl⟩ | ⟨off, x, -, rfl⟩ | ⟨pos, rfl⟩
  · exact (h.hostWrite off _).hostAdvance
  · exact (h.hostAssign x _).hostAdvance
  · exact h.hostJump pos

/-- Settles O46: each of the four kinds of step keeps the invariant. -/
theorem everyStepKeepsTheInvariant : Obligations.EveryStepKeepsTheInvariant := by
  intro s t h hs
  rcases step_cases hs with ⟨-, rfl⟩ | ⟨-, opc, i, -, -, he⟩ | ⟨-, st, -, hr⟩ | rfl
  · exact h.popEvent.resetBlock
  · exact exec_keeps_inv h.popEvent he
  · exact runStmt_keeps_inv h.popEvent hr
  · exact h.popEvent

/-- What every step keeps, every run keeps. -/
theorem run_keeps {P : State → Prop} (hstep : ∀ s t, P s → step s = .next t → P t) {k : Nat} {s t : State} (h : P s)
    (hr : Host.Core.run core k s = .next t) : P t := by
  induction k generalizing s with
  | zero => exact Host.Outcome.next.inj hr ▸ h
  | succ k ih =>
    obtain ⟨u, hs, hu⟩ := run_succ_next hr
    exact ih (hstep s u h hs) hu

/-- Settles O45. -/
theorem resetStateMeetsTheInvariant : Obligations.ResetStateMeetsTheInvariant :=
  inv_of_blank rfl Memory.nil_wf rfl rfl

/-- Settles O47: the loaded reset state meets the invariant, and every run keeps it. -/
theorem statusInvariantsHoldInEveryReachableState : Obligations.StatusInvariantsHoldInEveryReachableState := by
  intro prog es k t hr
  have h : Inv t := run_keeps everyStepKeepsTheInvariant (inv_of_blank rfl Memory.nil_wf rfl rfl) hr
  exact ⟨h.busy_quiet, h.done_err, h.err_ecode, h.statusInv.ecode_le_two, h.bit7⟩

/-! ## What a command, a statement and a step do to STATUS -/

theorem exec_busy {i : Instr} {s t : State} (h : exec i s = .next t) : Status.busy t.status = false := by
  rcases exec_next h with ⟨v, rfl⟩ | ⟨e, rfl⟩ <;> simp

theorem exec_wovr {i : Instr} {s t : State} (h : exec i s = .next t) :
    Status.wovr t.status = Status.wovr s.status := by
  rcases exec_next h with ⟨v, rfl⟩ | ⟨e, rfl⟩ <;> simp

/-- A dropped write in the spec's own words (20_memory.md R55). -/
theorem hostWrite_busy_eq (off : Offset) (v : Byte) {s : State} (h : Status.busy s.status = true) :
    hostWrite off v s = { s with status := s.status ||| 0x40#8 } := by
  rw [hostWrite_busy h, dropWrite, Status.overrun_eq]

/-- A host write leaves STATUS, or is dropped while BUSY, or is an acceptance. -/
theorem hostWrite_status_cases (off : Offset) (v : Byte) (s : State) :
    (hostWrite off v s).status = s.status ∨
    (Status.busy s.status = true ∧ (hostWrite off v s).status = Status.overrun s.status) ∨
    (Status.busy s.status = false ∧ off = Off.cmd ∧ hostWrite off v s = accept v s) := by
  rcases hostWrite_kinds off v s with ⟨hb, hw⟩ | hc | ⟨-, -, hw⟩ | ⟨a, b, len, npts, hw⟩
  · exact .inr (.inl ⟨hb, by rw [hw, dropWrite_status]⟩)
  · exact .inr (.inr hc)
  · exact .inl (by rw [hw, writeBuffer_status])
  · exact .inl (by rw [hw])

/-- What a step does to STATUS: reset, a completion step, nothing, a dropped write, or an acceptance. -/
theorem step_status_cases {s t : State} (h : step s = .next t) :
    (s.events.head? = some .reset ∧ t.status = 0x00#8) ∨
    (∃ opc i, s.phase = .busy opc ∧ decode opc = .ok i ∧ exec i (popEvent s) = .next t) ∨
    t.status = s.status ∨
    (Status.busy s.status = true ∧ t.status = Status.overrun s.status) ∨
    (Status.busy s.status = false ∧ t.status = Status.accepted ∧
      ∃ src, nextStmt s = some (.wr Off.cmd src) ∧ t.phase = .busy (sourceValue s.host.temps src)) := by
  rcases step_cases h with ⟨he, rfl⟩ | ⟨-, hx⟩ | ⟨-, st, hst, hr⟩ | rfl
  · exact .inl ⟨he, rfl⟩
  · exact .inr (.inl hx)
  · rcases runStmt_cases hr with ⟨off, src, rfl, rfl⟩ | ⟨off, x, -, rfl⟩ | ⟨pos, rfl⟩
    · rcases hostWrite_status_cases off (sourceValue s.host.temps src) (popEvent s) with hw | ⟨hb, hw⟩ | ⟨hb, rfl, hw⟩
      · exact .inr (.inr (.inl hw))
      · exact .inr (.inr (.inr (.inl ⟨hb, hw⟩)))
      · refine .inr (.inr (.inr (.inr ⟨hb, ?_, src, hst, ?_⟩)))
        · exact congrArg State.status hw
        · exact congrArg State.phase hw
    · exact .inr (.inr (.inl rfl))
    · exact .inr (.inr (.inl rfl))
  · exact .inr (.inr (.inl rfl))

theorem step_sets_busy {s t : State} (h : step s = .next t) (hs : Status.busy s.status = false)
    (ht : Status.busy t.status = true) :
    ∃ src, nextStmt s = some (.wr Off.cmd src) ∧ t.phase = .busy (sourceValue s.host.temps src) := by
  rcases step_status_cases h with ⟨-, hst⟩ | ⟨opc, i, -, -, he⟩ | hst | ⟨hb, -⟩ | ⟨-, -, hw⟩
  · simp [hst] at ht
  · simp [exec_busy he] at ht
  · simp [hst, hs] at ht
  · simp [hs] at hb
  · exact hw

theorem step_clears_busy {s t : State} (h : step s = .next t) (hs : Status.busy s.status = true)
    (ht : Status.busy t.status = false) :
    s.events.head? = some .reset ∨
      ∃ opc i, s.phase = .busy opc ∧ decode opc = .ok i ∧ exec i (popEvent s) = .next t := by
  rcases step_status_cases h with ⟨he, -⟩ | hx | hst | ⟨-, hst⟩ | ⟨hb, -⟩
  · exact .inl he
  · exact .inr hx
  · simp [hst, hs] at ht
  · simp [hst, hs] at ht
  · simp [hs] at hb

theorem step_clears_wovr {s t : State} (h : step s = .next t) (hs : Status.wovr s.status = true)
    (ht : Status.wovr t.status = false) :
    s.events.head? = some .reset ∨
      (Status.busy s.status = false ∧ ∃ src, nextStmt s = some (.wr Off.cmd src) ∧ t.status = 0x01#8) := by
  rcases step_status_cases h with ⟨he, -⟩ | ⟨opc, i, -, -, he⟩ | hst | ⟨-, hst⟩ | ⟨hb, hst, src, hn, -⟩
  · exact .inl he
  · simp [exec_wovr he, hs] at ht
  · simp [hst, hs] at ht
  · simp [hst] at ht
  · exact .inr ⟨hb, src, hn, hst⟩

/-- Settles O40. The two step clauses hold also outside the invariant. -/
theorem busyIsSetByAcceptanceAndClearedByCompletion : Obligations.BusyIsSetByAcceptanceAndClearedByCompletion :=
  ⟨fun _ _ => Status.busy_accepted, fun _ _ _ => exec_busy, fun _ => Status.busy_zero,
    fun _ _ _ => step_sets_busy, fun _ _ _ => step_clears_busy, fun off v _ => hostWrite_busy_eq off v⟩

/-- Settles O41. -/
theorem wovrIsStickyUntilAcceptanceOrReset : Obligations.WovrIsStickyUntilAcceptanceOrReset := by
  refine ⟨fun off v s hb => ?_, fun _ _ _ => exec_wovr, fun _ _ => step_clears_wovr,
    fun _ _ => Status.wovr_accepted, fun _ => Status.wovr_zero⟩
  rw [hostWrite_busy hb]
  exact ⟨by simp, rfl, rfl, rfl, rfl, rfl, rfl, rfl, rfl⟩

/-! ## R -/

theorem hostWrite_r (off : Offset) (v : Byte) (s : State) : (hostWrite off v s).r = s.r := by
  rcases hostWrite_kinds off v s with ⟨-, hw⟩ | ⟨-, -, hw⟩ | ⟨-, -, hw⟩ | ⟨a, b, len, npts, hw⟩ <;> simp [hw]

theorem runStmt_r {st : Stmt} {s t : State} (h : runStmt st s = .next t) : t.r = s.r := by
  rcases runStmt_cases h with ⟨off, v, -, rfl⟩ | ⟨off, x, -, rfl⟩ | ⟨pos, rfl⟩
  · exact hostWrite_r off _ s
  · rfl
  · rfl

/-- A command that changes R has completed. -/
theorem exec_changes_r {i : Instr} {s t : State} (h : exec i s = .next t) (hr : t.r ≠ s.r) :
    t.phase = .idle ∧ Status.done t.status = true := by
  rcases exec_next h with ⟨v, rfl⟩ | ⟨e, rfl⟩
  · exact ⟨rfl, by simp⟩
  · exact absurd rfl hr

/-- Settles O39. -/
theorem onlyASuccessfulCompletionWritesR : Obligations.OnlyASuccessfulCompletionWritesR := by
  refine ⟨fun s t h hres hr => ?_, fun i s t h herr => ?_, hostWrite_r, fun _ => rfl⟩
  · rcases step_cases h with ⟨-, rfl⟩ | ⟨-, opc, i, hp, hd, he⟩ | ⟨-, st, -, hst⟩ | rfl
    · simp at hres
    · exact ⟨opc, i, hp, hd, he, exec_changes_r he hr⟩
    · exact absurd (runStmt_r hst) hr
    · exact absurd rfl hr
  · rcases exec_next h with ⟨v, rfl⟩ | ⟨e, rfl⟩
    · simp at herr
    · rfl

/-! ## Buffer entries -/

theorem readBuffer_congr {s t : State} (hmem : t.mem = s.mem) (hres : t.resets = s.resets) (n : Nat) :
    readBuffer t n = readBuffer s n := by
  simp only [readBuffer, hmem, hres]

theorem readBuffer_writeBuffer_other {s : State} {n m : Nat} (v : Byte) (h : n ≠ m) :
    readBuffer (writeBuffer s m v) n = readBuffer s n := by
  simp only [readBuffer, writeBuffer_mem, writeBuffer_resets, Memory.lookup_store_other s.mem v h]

theorem readBuffer_unwritten {s : State} {n : Nat} (h : Memory.lookup s.mem n = none) :
    readBuffer s n = Config.resetBuf s.resets n := by
  simp [readBuffer, h]

theorem exec_readBuffer {i : Instr} {s t : State} (h : exec i s = .next t) (n : Nat) :
    readBuffer t n = readBuffer s n := by
  rcases exec_next h with ⟨v, rfl⟩ | ⟨e, rfl⟩ <;> exact readBuffer_congr rfl rfl n

/-- A host write leaves a buffer entry, but for an accepted write of that entry. -/
theorem hostWrite_readBuffer (off : Offset) (v : Byte) (s : State) (n : Nat) :
    readBuffer (hostWrite off v s) n = readBuffer s n ∨ (Status.busy s.status = false ∧ off.toNat = n) := by
  rcases hostWrite_kinds off v s with ⟨-, hw⟩ | ⟨-, -, hw⟩ | ⟨hb, -, hw⟩ | ⟨a, b, len, npts, hw⟩ <;> rw [hw]
  · exact .inl (readBuffer_congr rfl rfl n)
  · exact .inl (readBuffer_congr rfl rfl n)
  · by_cases hn : off.toNat = n
    · exact .inr ⟨hb, hn⟩
    · exact .inl (readBuffer_writeBuffer_other v (Ne.symm hn))
  · exact .inl (readBuffer_congr rfl rfl n)

/-- A step that is no reset leaves a buffer entry, but for the host's accepted write of that entry. -/
theorem step_readBuffer {s t : State} (h : step s = .next t) (hres : t.resets = s.resets) (n : Nat) :
    readBuffer t n = readBuffer s n ∨
      (Status.busy s.status = false ∧ ∃ off src, off.toNat = n ∧ nextStmt s = some (.wr off src)) := by
  rcases step_cases h with ⟨-, rfl⟩ | ⟨-, opc, i, -, -, he⟩ | ⟨-, st, hst, hr⟩ | rfl
  · simp at hres
  · exact .inl (exec_readBuffer he n)
  · rcases runStmt_cases hr with ⟨off, src, rfl, rfl⟩ | ⟨off, x, -, rfl⟩ | ⟨pos, rfl⟩
    · exact (hostWrite_readBuffer off _ (popEvent s) n).imp_right fun ⟨hb, hn⟩ => ⟨hb, off, src, hn, hst⟩
    · exact .inl rfl
    · exact .inl rfl
  · exact .inl rfl

/-- Settles O37. -/
theorem unwrittenEntriesKeepTheirDraw : Obligations.UnwrittenEntriesKeepTheirDraw := by
  refine ⟨fun s t n hn h hres => ⟨readBuffer_unwritten hn, step_readBuffer h hres n⟩, fun s i hi => ?_⟩
  simp only [hostRead, locate_coef hi, locate_px hi, locate_py hi]
  exact ⟨⟨rfl, rfl⟩, ⟨rfl, rfl⟩, rfl, rfl⟩

/-! ## The ROMs -/

/-- A number below 256 is a byte, so that a fact of the printed rows is decided over the 256 bytes. -/
theorem exists_byte_toNat {i : Nat} (h : i < 256) : ∃ b : Byte, b.toNat = i :=
  ⟨BitVec.ofNat 8 i, by simp; omega⟩

/-- The printed rows follow the rule's loop: times 3 is times x, plus once (10_state.md R37). -/
theorem antilogRom_succ {i : Nat} (h : i ≤ 253) : antilogRom (i + 1) = antilogRom i ^^^ xtimes (antilogRom i) := by
  have rows : ∀ b : Byte, b.toNat ≤ 253 →
      antilogRom (b.toNat + 1) = antilogRom b.toNat ^^^ xtimes (antilogRom b.toNat) := by decide
  obtain ⟨b, rfl⟩ := exists_byte_toNat (i := i) (by omega)
  exact rows b h

theorem antilogRom_mod (i : Nat) : antilogRom (i % 255) = antilogRom i := by
  rw [antilogRom, Nat.mod_mod, antilogRom]

theorem logRom_le : ∀ {a : Byte}, a ≠ 0x00#8 → (logRom a).toNat ≤ 254 := by decide

theorem antilogRom_logRom : ∀ {a : Byte}, a ≠ 0x00#8 → antilogRom (logRom a).toNat = a := by decide

theorem logRom_antilogRom {e : Nat} (h : e ≤ 254) : (logRom (antilogRom e)).toNat = e := by
  have rows : ∀ b : Byte, b.toNat ≤ 254 → (logRom (antilogRom b.toNat)).toNat = b.toNat := by decide
  obtain ⟨b, rfl⟩ := exists_byte_toNat (i := e) (by omega)
  exact rows b h

/-- The exponent of a nonzero byte is its LOG entry. -/
theorem exponent_unique {a : Byte} {e : Nat} (h : e ≤ 254) (ha : antilogRom e = a) : e = (logRom a).toNat := by
  rw [← ha, logRom_antilogRom h]

/-- Settles O50: the LOG entry of a byte is the one place where ANTILOG takes it. -/
theorem antilogRomIsThePowersOfThree : Obligations.AntilogRomIsThePowersOfThree :=
  ⟨rfl, fun _ => antilogRom_succ, fun i _ _ => (antilogRom_mod i).symm,
    fun v hv => ⟨(logRom v).toNat, logRom_le hv, antilogRom_logRom hv, fun _ => exponent_unique⟩, rfl, rfl⟩

/-- Settles O51. -/
theorem logRomInvertsTheAntilogRom : Obligations.LogRomInvertsTheAntilogRom :=
  ⟨fun _ ha => ⟨logRom_le ha, antilogRom_logRom ha, fun _ => exponent_unique⟩, rfl⟩

/-! ## Acceptance and reset -/

/-- A one-byte table word decodes as its byte. -/
theorem decode_of_decodeTableWord {w : Nat} {i : Instr} (h : decodeTableWord 8 w = some i) :
    decode (BitVec.ofNat 8 w) = .ok i := by
  have hb : tableBytes 8 w = [BitVec.ofNat 8 w] := by simp [tableBytes]
  rw [decodeTableWord, hb, decodeBytes] at h
  split at h
  · next j hj => exact hj.trans (congrArg _ (Option.some.inj h))
  · cases h

/-- A word is placed as its low byte. -/
theorem withFetchWord_eq (s : State) (w : Nat) : s.withFetchWord 8 w = placeCommand (BitVec.ofNat 8 w) s := by
  rw [State.withFetchWord, show BitVec.ofNat 8 (w % 2 ^ 8) = BitVec.ofNat 8 w from BitVec.eq_of_toNat_eq (by simp)]

/-- Settles O9: the placed command is pending and the unit moves next. -/
theorem placedTableWordRunsNext : Obligations.PlacedTableWordRunsNext := by
  intro s w i h
  rw [withFetchWord_eq]
  exact step_unit rfl (decode_of_decodeTableWord h) (.inr rfl)

theorem hostWrite_cmd_idle (v : Byte) {s : State} (h : Status.busy s.status = false) :
    hostWrite Off.cmd v s = accept v s := hostWrite_idle h

/-- Settles O28. -/
theorem cmdWriteIsAcceptedOnlyWhileIdle : Obligations.CmdWriteIsAcceptedOnlyWhileIdle := by
  refine ⟨fun v s => hostWrite_cmd_idle v, fun v s => hostWrite_busy_eq _ v, fun v s i hb hd hu => ?_⟩
  have hw : hostWrite 0x002#10 v s = accept v s := hostWrite_cmd_idle v hb
  rw [hw]
  exact step_unit rfl hd hu

/-- Settles O35: the constants by computation, and an unlisted buffer entry reads as its draw. -/
theorem resetStateHoldsTheStatedValues : Obligations.ResetStateHoldsTheStatedValues := by
  refine ⟨rfl, rfl, rfl, rfl, rfl, rfl, rfl, rfl, rfl, fun i _ => ?_⟩
  exact ⟨readBuffer_unwritten rfl, readBuffer_unwritten rfl, readBuffer_unwritten rfl⟩

end Sys2Proof.Safety
end

section
/-! SUPPORT. The family 20_memory.md: what a read sees, what a host write leaves, what a command reads and writes, whose turn a
step is, and that an accepted command completes; and the proofs of that family's obligations. -/

namespace Sys2Proof.Safety

open Sys2Proof.Machine

/-! ## The address map above the named registers -/

/-- From 0x009 on every offset is reserved or a buffer entry. -/
theorem locate_above_registers {off : Offset} (h9 : 0x009 ≤ off.toNat) :
    (locate off = .reserved ∧ isBufferOffset off.toNat = false) ∨
    (∃ i, i < 255 ∧ locate off = .coef i ∧ off.toNat = Config.coefBase + i) ∨
    (∃ i, i < 255 ∧ locate off = .px i ∧ off.toNat = Config.pxBase + i) ∨
    (∃ i, i < 255 ∧ locate off = .py i ∧ off.toNat = Config.pyBase + i) := by
  rcases locate_spec off with ⟨-, rfl⟩ | ⟨-, rfl⟩ | ⟨-, rfl⟩ | ⟨-, rfl⟩ | ⟨-, rfl⟩ | ⟨-, rfl⟩ | ⟨-, rfl⟩ | ⟨-, rfl⟩ |
    ⟨-, rfl⟩ | h
  iterate 9 exact absurd h9 (by decide)
  exact h

theorem isBufferOffset_iff (n : Nat) : isBufferOffset n = true ↔ 0x100 ≤ n ∧ n < 0x400 ∧ n % 0x100 < 255 := by
  simp only [isBufferOffset, Bool.and_eq_true, decide_eq_true_eq, and_assoc]
  rfl

theorem isBufferOffset_eq_false {n : Nat} (h : n < 0x100) : isBufferOffset n = false := by
  rw [← Bool.not_eq_true, isBufferOffset_iff]
  omega

theorem locate_reserved {off : Offset} (h9 : 0x009 ≤ off.toNat) (h : isBufferOffset off.toNat = false) :
    locate off = .reserved := by
  rw [← Bool.not_eq_true, isBufferOffset_iff] at h
  rcases locate_above_registers h9 with ⟨hl, -⟩ | ⟨i, hi, -, ho⟩ | ⟨i, hi, -, ho⟩ | ⟨i, hi, -, ho⟩
  · exact hl
  · rw [Config.coefBase] at ho; omega
  · rw [Config.pxBase] at ho; omega
  · rw [Config.pyBase] at ho; omega

theorem locate_of_isBufferOffset {off : Offset} (h : isBufferOffset off.toNat = true) :
    (∃ i, locate off = .coef i ∧ off.toNat = Config.coefBase + i) ∨
    (∃ i, locate off = .px i ∧ off.toNat = Config.pxBase + i) ∨
    (∃ i, locate off = .py i ∧ off.toNat = Config.pyBase + i) := by
  have h9 : 0x009 ≤ off.toNat := by have := (isBufferOffset_iff _).1 h; omega
  rcases locate_above_registers h9 with ⟨-, hn⟩ | ⟨i, -, hi⟩ | ⟨i, -, hi⟩ | ⟨i, -, hi⟩
  · simp [hn] at h
  · exact .inl ⟨i, hi⟩
  · exact .inr (.inl ⟨i, hi⟩)
  · exact .inr (.inr ⟨i, hi⟩)

/-- A read of a buffer offset is the entry at that offset. -/
theorem hostRead_buffer {off : Offset} (h : isBufferOffset off.toNat = true) (s : State) :
    hostRead off s = readBuffer s off.toNat := by
  rcases locate_of_isBufferOffset h with ⟨i, hl, ho⟩ | ⟨i, hl, ho⟩ | ⟨i, hl, ho⟩ <;> simp only [hostRead, hl, ho]

/-- An accepted write of a buffer offset stores the entry at that offset. -/
theorem hostWrite_buffer {off : Offset} (h : isBufferOffset off.toNat = true) (v : Byte) {s : State}
    (hb : Status.busy s.status = false) : hostWrite off v s = writeBuffer s off.toNat v := by
  rw [hostWrite_idle hb]
  rcases locate_of_isBufferOffset h with ⟨i, hl, ho⟩ | ⟨i, hl, ho⟩ | ⟨i, hl, ho⟩ <;> simp only [idleWrite, hl, ho]

/-- Settles O24. -/
theorem addressMapDecodesEveryOffset : Obligations.AddressMapDecodesEveryOffset :=
  ⟨rfl, rfl, rfl, rfl, rfl, rfl, rfl, rfl, rfl,
    fun _ h9 h => locate_reserved h9 (isBufferOffset_eq_false (by omega)),
    fun off h h' => (locate_buffer off _ (by omega)).1 (Nat.add_sub_cancel' h).symm, rfl,
    fun off h h' => (locate_buffer off _ (by omega)).2.1 (Nat.add_sub_cancel' h).symm, rfl,
    fun off h h' => (locate_buffer off _ (by omega)).2.2 (Nat.add_sub_cancel' h).symm, rfl⟩

/-- Settles O32. -/
theorem offsetsStandAtBasePlusOffset : Obligations.OffsetsStandAtBasePlusOffset := by
  refine ⟨fun off => ⟨rfl, ?_⟩, fun addr off h => ?_, fun addr h => ?_⟩
  · have hlt := off.isLt
    rw [offsetAt, platformAddress, if_pos (by omega), Nat.add_sub_cancel_left, BitVec.ofNat_toNat, BitVec.setWidth_eq]
  · simp only [offsetAt] at h
    split at h
    · next hin =>
      rw [← Option.some.inj h, platformAddress, BitVec.toNat_ofNat]
      omega
    · cases h
  · rw [offsetAt, if_neg (by omega)]

/-! ## What a read sees -/

/-- A read sees the one field that stands at its offset. -/
theorem hostRead_agree {off : Offset} {s t : State} (hst : off = Off.status → s.status = t.status)
    (ha : off = Off.a → s.a = t.a) (hb : off = Off.b → s.b = t.b) (hr : off = Off.r → s.r = t.r)
    (hlen : off = Off.len → s.len = t.len) (hnpts : off = Off.npts → s.npts = t.npts)
    (hbuf : readBuffer s off.toNat = readBuffer t off.toNat) : hostRead off s = hostRead off t := by
  rcases locate_spec off with ⟨hl, -⟩ | ⟨hl, -⟩ | ⟨hl, -⟩ | ⟨hl, ho⟩ | ⟨hl, ho⟩ | ⟨hl, ho⟩ | ⟨hl, ho⟩ | ⟨hl, ho⟩ |
    ⟨hl, ho⟩ | ⟨hl, -⟩ | ⟨i, -, hl, ho⟩ | ⟨i, -, hl, ho⟩ | ⟨i, -, hl, ho⟩ <;> simp only [hostRead, hl]
  · rw [hst ho]
  · exact ha ho
  · exact hb ho
  · exact hr ho
  · exact hlen ho
  · exact hnpts ho
  all_goals rw [← ho, hbuf]

/-- A command changes what the offsets of R and STATUS read, and no other. -/
theorem exec_hostRead {i : Instr} {s t : State} (h : exec i s = .next t) {off : Offset} (hr : off ≠ Off.r)
    (hst : off ≠ Off.status) : hostRead off t = hostRead off s := by
  rcases exec_next h with ⟨v, rfl⟩ | ⟨e, rfl⟩ <;>
  exact hostRead_agree (absurd · hst) (fun _ => rfl) (fun _ => rfl) (absurd · hr) (fun _ => rfl) (fun _ => rfl)
    (exec_readBuffer h _)

/-- Settles O22. -/
theorem commandsWriteOnlyRAndStatus : Obligations.CommandsWriteOnlyRAndStatus := by
  refine fun i s t h => ⟨?_, fun off => exec_hostRead h, exec_wovr h⟩
  rcases exec_next h with ⟨v, rfl⟩ | ⟨e, rfl⟩ <;> rfl

/-! ## Host writes -/

/-- A dropped write changes no read but that of STATUS. -/
theorem hostRead_dropWrite {off : Offset} (h : off ≠ Off.status) (s : State) :
    hostRead off (dropWrite s) = hostRead off s :=
  hostRead_congr ⟨rfl, rfl, rfl, rfl, rfl, rfl, rfl⟩ (absurd · h)

/-- An operand register changes by a host write of its own offset only. -/
theorem hostWrite_registers (off : Offset) (v : Byte) (s : State) :
    (off ≠ Off.a → (hostWrite off v s).a = s.a) ∧ (off ≠ Off.b → (hostWrite off v s).b = s.b) ∧
    (off ≠ Off.len → (hostWrite off v s).len = s.len) ∧ (off ≠ Off.npts → (hostWrite off v s).npts = s.npts) := by
  rcases hostWrite_cases off v s with
    ⟨-, hw⟩ | ⟨-, ⟨-, hw⟩ | ⟨rfl, hw⟩ | ⟨rfl, hw⟩ | ⟨rfl, hw⟩ | ⟨rfl, hw⟩ | ⟨-, hw⟩ | hw⟩ <;> simp [hw]

/-- A host write changes the reads of its own offset and of STATUS, and no other. -/
theorem hostRead_hostWrite_other {off other : Offset} (v : Byte) (s : State) (hne : other ≠ off)
    (hst : other ≠ Off.status) : hostRead other (hostWrite off v s) = hostRead other s := by
  obtain ⟨ha, hb, hlen, hnpts⟩ := hostWrite_registers off v s
  have hbuf : readBuffer (hostWrite off v s) other.toNat = readBuffer s other.toNat :=
    (hostWrite_readBuffer off v s other.toNat).resolve_right fun ⟨_, ho⟩ => hne (BitVec.eq_of_toNat_eq ho.symm)
  exact hostRead_agree (absurd · hst) (fun h => ha (h ▸ hne.symm)) (fun h => hb (h ▸ hne.symm))
    (fun _ => hostWrite_r off v s) (fun h => hlen (h ▸ hne.symm)) (fun h => hnpts (h ▸ hne.symm)) hbuf

theorem readBuffer_writeBuffer_same (s : State) (n : Nat) (v : Byte) : readBuffer (writeBuffer s n v) n = v := by
  simp only [readBuffer, writeBuffer_mem, Memory.lookup_store_same, Option.getD_some]

/-- What a write leaves to read at its own offset: the byte before, or, where the write is accepted, the byte written. -/
theorem hostRead_hostWrite_self {off : Offset} (v : Byte) (s : State) (hst : off ≠ Off.status) :
    hostRead off (hostWrite off v s) = hostRead off s ∨
    (Status.busy s.status = false ∧ hostRead off (hostWrite off v s) = v) := by
  rcases hostWrite_cases off v s with
    ⟨-, hw⟩ | ⟨hb, ⟨rfl, hw⟩ | ⟨rfl, hw⟩ | ⟨rfl, hw⟩ | ⟨rfl, hw⟩ | ⟨rfl, hw⟩ | ⟨hn, hw⟩ | hw⟩ <;> rw [hw]
  · exact .inl (hostRead_dropWrite hst s)
  · exact .inl rfl
  · exact .inr ⟨hb, rfl⟩
  · exact .inr ⟨hb, rfl⟩
  · exact .inr ⟨hb, rfl⟩
  · exact .inr ⟨hb, rfl⟩
  · exact .inr ⟨hb, by rw [hostRead_buffer hn, readBuffer_writeBuffer_same]⟩
  · exact .inl rfl

/-- Settles O29. -/
theorem readAfterWriteGivesTheByte : Obligations.ReadAfterWriteGivesTheByte := by
  refine ⟨fun off v s hb h => ?_, fun off other v s => hostRead_hostWrite_other v s⟩
  rcases h with hn | hreg
  · rw [hostWrite_buffer hn v hb, hostRead_buffer hn, readBuffer_writeBuffer_same]
  · simp only [List.mem_cons, List.not_mem_nil, or_false] at hreg
    rw [hostWrite_idle hb]
    rcases hreg with rfl | rfl | rfl | rfl <;> rfl

theorem hostWrite_reserved {off : Offset} (hl : locate off = .reserved) (v : Byte) {s : State}
    (hb : Status.busy s.status = false) : hostWrite off v s = s := by
  simp only [hostWrite_idle hb, idleWrite, hl]

theorem hostRead_reserved {off : Offset} (hl : locate off = .reserved) (s : State) : hostRead off s = 0x00#8 := by
  simp only [hostRead, hl]

/-- Settles O26. -/
theorem reservedOffsetsReadZeroAndIgnoreWrites : Obligations.ReservedOffsetsReadZeroAndIgnoreWrites := by
  intro off hoff v s
  have hl : locate off = .reserved := by
    rcases hoff with ⟨h9, h⟩ | rfl | rfl | rfl
    · exact locate_reserved h9 (isBufferOffset_eq_false (by omega))
    · rfl
    · rfl
    · rfl
  exact ⟨hostRead_reserved hl s, hostWrite_reserved hl v, hostWrite_busy_eq off v⟩

/-- Settles O27. -/
theorem hostWriteActsByBusyAndOffset : Obligations.HostWriteActsByBusyAndOffset := by
  refine fun v s => ⟨fun hb off => hostWrite_busy_eq off v hb, fun hb => ?_⟩
  refine ⟨hostWrite_cmd_idle v hb, hostWrite_idle hb, hostWrite_idle hb, hostWrite_idle hb, hostWrite_idle hb,
    fun i hi => ?_, hostWrite_idle hb, hostWrite_idle hb, hostWrite_idle hb, hostWrite_idle hb,
    fun off hl => hostWrite_reserved hl v hb⟩
  simp only [hostWrite_idle hb, idleWrite, locate_coef hi, locate_px hi, locate_py hi]
  exact ⟨rfl, rfl, rfl⟩

theorem overrun_overrun (st : Byte) : Status.overrun (Status.overrun st) = Status.overrun st := by
  rw [Status.overrun_eq, Status.overrun_eq, BitVec.or_assoc, BitVec.or_self]

/-- Settles O30: a dropped, a register and a buffer write are each idempotent, and an accepted write of CMD makes the next one
a dropped write. -/
theorem repeatedWritesAreIdempotent : Obligations.RepeatedWritesAreIdempotent := by
  refine ⟨fun off v s hcmd => ?_, fun v s hb => ?_⟩
  · rcases hostWrite_cases off v s with
      ⟨hb, hw⟩ | ⟨hb, ⟨rfl, hw⟩ | ⟨rfl, hw⟩ | ⟨rfl, hw⟩ | ⟨rfl, hw⟩ | ⟨rfl, hw⟩ | ⟨hn, hw⟩ | hw⟩ <;> rw [hw]
    · rw [hostWrite_busy (by simpa using hb), dropWrite, dropWrite_status, overrun_overrun, dropWrite]
    · exact absurd rfl hcmd
    · exact hostWrite_idle hb
    · exact hostWrite_idle hb
    · exact hostWrite_idle hb
    · exact hostWrite_idle hb
    · rw [hostWrite_buffer hn v (s := writeBuffer s off.toNat v) hb, writeBuffer, writeBuffer_mem,
        Memory.store_store, writeBuffer]
    · exact hw
  · rw [hostWrite_cmd_idle v hb, hostWrite_busy (by simp)]
    have hst : Status.overrun Status.accepted ≠ Status.accepted := by decide
    exact fun h => hst (congrArg State.status h)

/-- Settles O31. -/
theorem wovrTellsWhetherTheCmdWriteWasDropped : Obligations.WovrTellsWhetherTheCmdWriteWasDropped := by
  intro v s
  show Status.wovr (Status.visible (hostWrite Off.cmd v s).status) = _
  cases hb : Status.busy s.status with
  | true => rw [hostWrite_busy hb]; simp
  | false => rw [hostWrite_cmd_idle v hb]; simp

/-! ## Whose turn a step is -/

/-- The unit's turn in phase IDLE only takes its event off the schedule. -/
theorem step_unit_idle {s : State} (hp : s.phase = .idle) (h : s.events.head? = some .unitMoves) :
    step s = .next (popEvent s) := by
  obtain ⟨rest, hes⟩ := List.head?_eq_some_iff.1 h
  simp only [step, nextTurn, hes, runEvent, unitTurn, hp, popEvent, List.tail_cons]

/-- Settles O7. -/
theorem stepRunsThePendingCommand : Obligations.StepRunsThePendingCommand :=
  ⟨fun _ _ _ => step_unit, fun _ => step_unit_idle⟩

theorem hostTurn_of_nextStmt {s : State} {st : Stmt} (h : nextStmt s = some st) : hostTurn s = runStmt st s := by
  simp only [hostTurn, h]

theorem hostTurn_of_ended {s : State} (h : nextStmt s = none) : hostTurn s = .next s := by
  simp only [hostTurn, h]

theorem step_runs_stmt {s : State} {st : Stmt} (h : HostIsNext s) (hst : nextStmt s = some st) :
    step s = runStmt st (popEvent s) :=
  (step_host h).trans (hostTurn_of_nextStmt hst)

/-- Settles O8. -/
theorem stepRunsTheHostsNextStatement : Obligations.StepRunsTheHostsNextStatement :=
  ⟨fun _ _ => step_runs_stmt, fun _ h hn => (step_host h).trans (hostTurn_of_ended hn)⟩

/-- Settles O25: the constants and registers by the address map; a `rd` advances the host and assigns its temporary. -/
theorem hostReadReturnsTheValueAndChangesNothing : Obligations.HostReadReturnsTheValueAndChangesNothing := by
  refine ⟨fun s => ⟨rfl, rfl, rfl, rfl, rfl, rfl, rfl, rfl, rfl, fun i hi => ?_, fun off hl => hostRead_reserved hl s⟩,
    fun s off x h hst => ⟨_, step_runs_stmt h hst, ?_⟩⟩
  · simp only [hostRead, locate_coef hi, locate_px hi, locate_py hi]
    exact ⟨rfl, rfl, rfl⟩
  · show (Memory.lookup (Memory.store s.host.temps x (hostRead off s)) x).getD _ = _
    rw [Memory.lookup_store_same, Option.getD_some]

/-- Settles O38: a completion step and every statement but a write leave the offset's read; a write that changes it is accepted
and of that offset. -/
theorem onlyAHostWriteChangesAnOperand : Obligations.OnlyAHostWriteChangesAnOperand := by
  intro s t off h hres hst hr hne
  rcases step_cases h with ⟨-, rfl⟩ | ⟨-, opc, i, -, -, he⟩ | ⟨-, st, hn, hx⟩ | rfl
  · simp at hres
  · exact absurd (exec_hostRead he hr hst) hne
  · rcases runStmt_cases hx with ⟨off', src, rfl, rfl⟩ | ⟨off', x, -, rfl⟩ | ⟨pos, rfl⟩
    · obtain rfl : off' = off := by
        by_contra ho
        exact hne (hostRead_hostWrite_other _ (popEvent s) (Ne.symm ho) hst)
      obtain ⟨hb, hv⟩ := (hostRead_hostWrite_self _ (popEvent s) hst).resolve_left hne
      exact ⟨hb, src, hn, hv⟩
    · exact absurd rfl hne
    · exact absurd rfl hne
  · exact absurd rfl hne

/-! ## What a command reads -/

/-- The scan reads no coefficient at index 0. -/
theorem scanDegree_congr {f g : Nat → Byte} {n : Nat} (h : ∀ k, 0 < k → k ≤ n → f k = g k) :
    scanDegree f n = scanDegree g n := by
  induction n with
  | zero => rfl
  | succ n ih =>
    rw [scanDegree_succ, scanDegree_succ, h _ n.succ_pos (Nat.le_refl _),
      ih fun k h0 hk => h k h0 (Nat.le_succ_of_le hk)]

theorem coefficients_congr {s t : State} (hlen : s.len = t.len) (hc : ∀ k, k < s.len.toNat → s.coef k = t.coef k) :
    s.coefficients = t.coefficients := by
  rw [State.coefficients, State.coefficients, ← hlen]
  exact List.map_congr_left fun k hk => hc k (List.mem_range.1 hk)

theorem repeatedX_congr {n : Nat} {f g : Nat → Byte} (h : ∀ k, k < n → f k = g k) : repeatedX n f = repeatedX n g := by
  rw [Bool.eq_iff_iff, repeatedX_iff, repeatedX_iff]
  exact exists₂_congr fun i j => and_congr_right fun hi => and_congr_right fun hj => by rw [h i hi, h j hj]

theorem basisAtZero_congr {n : Nat} {f g : Nat → Byte} (h : ∀ k, k < n → f k = g k) {i : Nat} (hi : i < n) :
    basisAtZero n f i = basisAtZero n g i :=
  List.foldl_ext _ _ _ fun _ j hj => by rw [h i hi, h j (List.mem_range.1 hj)]

theorem interpolateAtZero_congr {n : Nat} {px py px' py' : Nat → Byte} (hx : ∀ k, k < n → px k = px' k)
    (hy : ∀ k, k < n → py k = py' k) : interpolateAtZero n px py = interpolateAtZero n px' py' :=
  List.foldl_ext _ _ _ fun _ i hi => by
    rw [basisAtZero_congr hx (List.mem_range.1 hi), hy i (List.mem_range.1 hi)]

theorem exec_div (s : State) :
    exec .div s = if s.b = 0x00#8 then .next (raiseError .divzero s) else .next (complete (gdiv s.a s.b) s) := rfl

theorem exec_interp (s : State) :
    exec .interp s = if repeatedX s.npts.toNat s.px then .next (raiseError .divzero s)
      else .next (complete (interpolateAtZero s.npts.toNat s.px s.py) s) := rfl

/-- The command ends in both states with the same error, or completes in both with the same byte. -/
def EndsAlike (i : Instr) (s t : State) : Prop :=
  (∃ e, exec i s = .next (raiseError e s) ∧ exec i t = .next (raiseError e t)) ∨
  (∃ v, exec i s = .next (complete v s) ∧ exec i t = .next (complete v t))

theorem EndsAlike.sameEnd {i : Instr} {s t s' t' : State} (h : EndsAlike i s t) (hs : exec i s = .next s')
    (ht : exec i t = .next t') :
    Status.ecode s'.status = Status.ecode t'.status ∧ (Status.done s'.status = true → s'.r = t'.r) := by
  rcases h with ⟨e, he, he'⟩ | ⟨v, hv, hv'⟩
  · obtain rfl := Host.Outcome.next.inj (he.symm.trans hs)
    obtain rfl := Host.Outcome.next.inj (he'.symm.trans ht)
    simp
  · obtain rfl := Host.Outcome.next.inj (hv.symm.trans hs)
    obtain rfl := Host.Outcome.next.inj (hv'.symm.trans ht)
    simp

theorem endsAlike_div {s t : State} (ha : s.a = t.a) (hb : s.b = t.b) : EndsAlike .div s t := by
  rw [EndsAlike, exec_div, exec_div, ← ha, ← hb]
  split
  · exact .inl ⟨_, rfl, rfl⟩
  · exact .inr ⟨_, rfl, rfl⟩

theorem endsAlike_interp {s t : State} (hn : s.npts = t.npts) (hx : ∀ k, k < s.npts.toNat → s.px k = t.px k)
    (hy : ∀ k, k < s.npts.toNat → s.py k = t.py k) : EndsAlike .interp s t := by
  rw [EndsAlike, exec_interp, exec_interp, ← hn, ← repeatedX_congr hx, ← interpolateAtZero_congr hx hy]
  split
  · exact .inl ⟨_, rfl, rfl⟩
  · exact .inr ⟨_, rfl, rfl⟩

/-- Settles O23: each command's value, and whether it raises an error, is a function of the operands listed for it. -/
theorem commandsReadOnlyTheirOperands : Obligations.CommandsReadOnlyTheirOperands := by
  intro i s t s' t' hs ht hnop hab hdeg heval hinterp
  refine EndsAlike.sameEnd (i := i) ?_ hs ht
  cases i with
  | nop => exact .inr ⟨s.r, rfl, by rw [hnop rfl]; rfl⟩
  | add =>
    obtain ⟨ha, hb⟩ := hab (by simp)
    exact .inr ⟨gadd s.a s.b, rfl, by rw [ha, hb]; rfl⟩
  | sub =>
    obtain ⟨ha, hb⟩ := hab (by simp)
    exact .inr ⟨gsub s.a s.b, rfl, by rw [ha, hb]; rfl⟩
  | mul =>
    obtain ⟨ha, hb⟩ := hab (by simp)
    exact .inr ⟨gmul s.a s.b, rfl, by rw [ha, hb]; rfl⟩
  | div =>
    obtain ⟨ha, hb⟩ := hab (by simp)
    exact endsAlike_div ha hb
  | deg =>
    obtain ⟨hlen, hc⟩ := hdeg rfl
    have hscan : scanDegree s.coef (s.len.toNat - 1) = scanDegree t.coef (s.len.toNat - 1) :=
      scanDegree_congr fun k h0 hk => hc k (by omega)
    exact .inr ⟨_, rfl, by rw [hscan, hlen]; rfl⟩
  | eval =>
    obtain ⟨ha, hlen, hc⟩ := heval rfl
    exact .inr ⟨horner s.a s.coefficients, rfl, by rw [ha, coefficients_congr hlen hc]; rfl⟩
  | interp =>
    obtain ⟨hn, hxy⟩ := hinterp rfl
    exact endsAlike_interp hn (fun k hk => (hxy k hk).1) (fun k hk => (hxy k hk).2)
  | reserved08 | reserved10 | reserved20 | reserved40 | reserved80 => exact .inl ⟨.illegal, rfl, rfl⟩

/-! ## An accepted command completes -/

theorem SameData.refl (s : State) : SameData s s := ⟨rfl, rfl, rfl, rfl, rfl, rfl, rfl⟩

theorem SameData.trans {s t u : State} (h : SameData s t) (h' : SameData t u) : SameData s u := by
  obtain ⟨ha, hb, hlen, hnpts, hr, hmem, hres⟩ := h
  obtain ⟨ha', hb', hlen', hnpts', hr', hmem', hres'⟩ := h'
  exact ⟨ha.trans ha', hb.trans hb', hlen.trans hlen', hnpts.trans hnpts', hr.trans hr', hmem.trans hmem',
    hres.trans hres'⟩

/-- What a turn of the host leaves while BUSY: the phase, the data, the schedule and the host's program. -/
structure BusyFrame (s t : State) : Prop where
  phase : t.phase = s.phase
  data : SameData t s
  events : t.events = s.events
  prog : t.host.prog = s.host.prog

theorem runStmt_busyFrame {st : Stmt} {s t : State} (hb : Status.busy s.status = true) (h : runStmt st s = .next t) :
    BusyFrame s t := by
  rcases runStmt_cases h with ⟨off, v, -, rfl⟩ | ⟨off, x, -, rfl⟩ | ⟨pos, rfl⟩
  · rw [hostWrite_busy hb]
    exact ⟨rfl, ⟨rfl, rfl, rfl, rfl, rfl, rfl, rfl⟩, rfl, rfl⟩
  · exact ⟨rfl, ⟨rfl, rfl, rfl, rfl, rfl, rfl, rfl⟩, rfl, rfl⟩
  · exact ⟨rfl, ⟨rfl, rfl, rfl, rfl, rfl, rfl, rfl⟩, rfl, rfl⟩

/-- A statement of a well-formed program goes on: a branch finds its label. -/
theorem runStmt_of_programWf {st : Stmt} {s : State} (hwf : programWf s.host.prog = true) (hst : st ∈ s.host.prog) :
    ∃ t, runStmt st s = .next t := by
  cases st with
  | wr off v => exact ⟨_, rfl⟩
  | rd off x => exact ⟨_, rfl⟩
  | label l => exact ⟨_, rfl⟩
  | bnz x bit l =>
    obtain ⟨pos, hpos⟩ := Option.isSome_iff_exists.1 (List.all_eq_true.1 hwf _ hst)
    simp only [runStmt, hpos]
    split
    · exact ⟨_, rfl⟩
    · exact ⟨_, rfl⟩

/-- While BUSY the host's turn goes on and leaves the pending command alone. -/
theorem hostTurn_busyFrame {s : State} (hb : Status.busy s.status = true) (hwf : programWf s.host.prog = true) :
    ∃ t, hostTurn s = .next t ∧ BusyFrame s t := by
  cases hn : nextStmt s with
  | none => exact ⟨s, hostTurn_of_ended hn, rfl, .refl s, rfl, rfl⟩
  | some st =>
    obtain ⟨t, ht⟩ := runStmt_of_programWf hwf (List.mem_of_getElem? hn)
    exact ⟨t, (hostTurn_of_nextStmt hn).trans ht, runStmt_busyFrame hb ht⟩

/-- In the unit's turn the pending command completes. -/
theorem step_completes {s : State} {opc : Byte} (hp : s.phase = .busy opc) (h : UnitIsNext s) :
    ∃ t i, decode opc = .ok i ∧ step s = .next t ∧ exec i (popEvent s) = .next t ∧ t.phase = .idle := by
  obtain ⟨i, hi⟩ := decode_total opc
  have hs := step_unit hp hi h
  rcases exec_cases i (popEvent s) with ⟨v, hx⟩ | ⟨e, hx⟩
  · exact ⟨_, i, hi, hs.trans hx, hx, rfl⟩
  · exact ⟨_, i, hi, hs.trans hx, hx, rfl⟩

/-- The pending command stays pending, on the same data, until the unit is next, within the schedule. -/
theorem run_reaches_unit_turn {s : State} {opc : Byte} (h : Inv s) (hp : s.phase = .busy opc) (ha : AgentsOnly s)
    (hwf : programWf s.host.prog = true) :
    ∃ k u, k ≤ s.events.length ∧ Host.Core.run core k s = .next u ∧ u.phase = .busy opc ∧ SameData u s ∧
      UnitIsNext u := by
  induction hes : s.events generalizing s with
  | nil => exact ⟨0, s, Nat.le_refl _, rfl, hp, .refl s, .inl hes⟩
  | cons e rest ih =>
    rcases ha e (by simp [hes]) with rfl | rfl
    · have hb : Status.busy s.status = true := h.busy_phase.2 (by simp [hp])
      obtain ⟨t, ht, hf⟩ := hostTurn_busyFrame (s := popEvent s) hb hwf
      have hs : step s = .next t := (step_host (.inl (by simp [hes]))).trans ht
      have htail : t.events = rest := by rw [hf.events, popEvent_events, hes, List.tail_cons]
      obtain ⟨k, u, hk, hr, hpu, hd, hu⟩ := ih (everyStepKeepsTheInvariant s t h hs) (hf.phase.trans hp)
        (fun e he => ha e (by rw [hes, ← htail]; exact List.mem_cons_of_mem _ he)) (hf.prog ▸ hwf) htail
      exact ⟨k + 1, u, Nat.succ_le_succ hk, (run_next hs).trans hr, hpu, hd.trans hf.data, hu⟩
    · exact ⟨0, s, Nat.zero_le _, rfl, hp, .refl s, .inr (by simp [hes])⟩

/-- Settles O48: the command stays pending until the unit's turn, by induction on the schedule, and there it completes. -/
theorem acceptedCommandsCompleteOnTheirOperands : Obligations.AcceptedCommandsCompleteOnTheirOperands := by
  intro s opc h hp ha hwf
  obtain ⟨k, u, hk, hr, hpu, hd, hu⟩ := run_reaches_unit_turn h hp ha hwf
  obtain ⟨t, i, hi, hs, hx, ht⟩ := step_completes hpu hu
  exact ⟨k, u, t, i, hk, hr, hpu, hd, hi, hs, hx, ht⟩

end Sys2Proof.Safety
end

section
/-! SUPPORT. The family 30_encoding.md: the opcode table and the decoder, the host's statements and `exec OP`, when a step
faults, and the transaction word; and the proofs of that family's obligations. -/

namespace Sys2Proof.Safety

open Sys2Proof.Machine

/-! ## The opcode table -/

/-- Settles O1, by the table on each of the 256 bytes. -/
theorem everyByteMatchesExactlyOneRow : Obligations.EveryByteMatchesExactlyOneRow := by
  unfold Obligations.EveryByteMatchesExactlyOneRow
  decide

/-- The row that covers a byte is the one the decoder finds, as no other covers it. -/
theorem decode_of_covers {row : OpcodeRow} {opc : Byte} (hrow : row ∈ opcodeRows) (hc : row.covers opc = true) :
    decode opc = .ok (row.instr opc) := by
  obtain ⟨only, honly⟩ := List.length_eq_one_iff.1 (everyByteMatchesExactlyOneRow opc)
  have hmem : row ∈ opcodeRows.filter fun r => r.covers opc := List.mem_filter.2 ⟨hrow, hc⟩
  obtain rfl : row = only := by simpa [honly] using hmem
  have hfind : opcodeRows.find? (fun r => r.covers opc) = some row := by
    rw [← List.head?_filter, honly, List.head?_cons]
  simp only [decode, hfind]

/-- What a byte decodes to is the reading of a row that covers it. -/
theorem covers_of_decode {opc : Byte} {i : Instr} (h : decode opc = .ok i) :
    ∃ row ∈ opcodeRows, row.covers opc = true ∧ row.instr opc = i := by
  rw [decode] at h
  split at h
  · next row hfind =>
    have hc : row.covers opc = true := List.find?_some (p := (OpcodeRow.covers · opc)) hfind
    exact ⟨row, List.mem_of_find?_eq_some hfind, hc, Except.ok.inj h⟩
  · cases h

/-- A row reads each byte it covers as a well-formed command of that byte: a named row covers its pattern only, a reserved one
keeps the byte. -/
theorem row_instr_encodes {row : OpcodeRow} {opc : Byte} (hrow : row ∈ opcodeRows) (hc : row.covers opc = true) :
    (row.instr opc).wf = true ∧ encode (row.instr opc) = opc := by
  have named {pattern : Byte} (h : (opc &&& 0xFF#8 == pattern) = true) : pattern = opc := by
    have hall : 0xFF#8 = BitVec.allOnes 8 := rfl
    rw [hall, BitVec.and_allOnes, beq_iff_eq] at h
    exact h.symm
  simp only [opcodeRows, List.mem_cons, List.not_mem_nil, or_false] at hrow
  rcases hrow with rfl | rfl | rfl | rfl | rfl | rfl | rfl | rfl | rfl | rfl | rfl | rfl | rfl
  iterate 8 exact ⟨rfl, named hc⟩
  iterate 5 exact ⟨hc, rfl⟩

/-! ## Decoding and encoding -/

/-- A well-formed command's byte is covered by its row. -/
theorem encode_covered (i : Instr) : Laws.EncodedByItsRow.Statement i := by
  cases i with
  | nop => exact Laws.EncodedByItsRow.nop
  | add => exact Laws.EncodedByItsRow.add
  | sub => exact Laws.EncodedByItsRow.sub
  | mul => exact Laws.EncodedByItsRow.mul
  | div => exact Laws.EncodedByItsRow.div
  | deg => exact Laws.EncodedByItsRow.deg
  | eval => exact Laws.EncodedByItsRow.eval
  | interp => exact Laws.EncodedByItsRow.interp
  | reserved08 opc => exact Laws.EncodedByItsRow.reserved08 opc
  | reserved10 opc => exact Laws.EncodedByItsRow.reserved10 opc
  | reserved20 opc => exact Laws.EncodedByItsRow.reserved20 opc
  | reserved40 opc => exact Laws.EncodedByItsRow.reserved40 opc
  | reserved80 opc => exact Laws.EncodedByItsRow.reserved80 opc

/-- Settles O4: the command's row covers its byte, so the decoder finds it. -/
theorem decodeOfEncodeIsTheCommand : Obligations.DecodeOfEncodeIsTheCommand := by
  intro i hwf
  obtain ⟨row, hrow, hc, hi⟩ := encode_covered i hwf
  rw [decode_of_covers hrow hc, hi]

/-- Settles O5. -/
theorem encodeOfDecodeIsTheByte : Obligations.EncodeOfDecodeIsTheByte := by
  intro opc i h
  obtain ⟨row, hrow, hc, rfl⟩ := covers_of_decode h
  exact row_instr_encodes hrow hc

/-- Every command with an opcode from 0x08 on ends with ILLEGAL (30_encoding.md R73). -/
theorem exec_illegal_of_encode {i : Instr} (h : 0x08 ≤ (encode i).toNat) (s : State) :
    exec i s = .next (illegalIn s) := by
  rw [← raiseError_illegal]
  cases i with
  | nop | add | sub | mul | div | deg | eval | interp => exact absurd h (by decide)
  | reserved08 | reserved10 | reserved20 | reserved40 | reserved80 => rfl

/-- The eight commands of 30_encoding.md R71, in the order of their opcodes. -/
def namedCommands : List Instr := [.nop, .add, .sub, .mul, .div, .deg, .eval, .interp]

theorem encode_namedCommands {i : Instr} {n : Nat} (h : namedCommands[n]? = some i) :
    i.wf = true ∧ encode i = BitVec.ofNat 8 n := by
  have hall : ∀ k : Fin namedCommands.length,
      namedCommands[k].wf = true ∧ encode namedCommands[k] = BitVec.ofNat 8 k := by decide
  obtain ⟨hn, rfl⟩ := List.getElem?_eq_some_iff.1 h
  exact hall ⟨n, hn⟩

/-- Settles O2: a named command is decoded from its opcode; a byte from 0x08 on decodes to a command of that opcode. -/
theorem everyByteIsACommandOrIllegal : Obligations.EveryByteIsACommandOrIllegal := by
  intro opc
  refine ⟨fun i hi => ?_, fun h8 => ?_⟩
  · obtain ⟨hwf, henc⟩ := encode_namedCommands hi
    rw [BitVec.ofNat_toNat, BitVec.setWidth_eq] at henc
    rw [← henc, decodeOfEncodeIsTheCommand i hwf]
  · obtain ⟨i, hi⟩ := decode_total opc
    have henc : encode i = opc := (encodeOfDecodeIsTheByte opc i hi).2
    exact ⟨i, hi, exec_illegal_of_encode (henc ▸ h8)⟩

/-- The table word of a well-formed command decodes to that command. -/
theorem decodeTableWord_encode {i : Instr} (hwf : i.wf = true) : decodeTableWord 8 (encode i).toNat = some i := by
  have hb : tableBytes 8 (encode i).toNat = [encode i] := by simp [tableBytes]
  rw [decodeTableWord, hb, decodeBytes, decodeOfEncodeIsTheCommand i hwf]

/-- Settles O3: each written-out word is the opcode of its command. -/
theorem writtenOutOpcodesDecode : Obligations.WrittenOutOpcodesDecode :=
  ⟨decodeTableWord_encode (i := .nop) rfl, decodeTableWord_encode (i := .mul) rfl, decodeTableWord_encode (i := .deg) rfl,
    decodeTableWord_encode (i := .eval) rfl, decodeTableWord_encode (i := .interp) rfl,
    decodeTableWord_encode (i := .reserved08 0x08#8) rfl, decodeTableWord_encode (i := .reserved80 0xFF#8) rfl⟩

/-! ## The transaction word -/

theorem toNat_transactionWord_write (off : Offset) (v : Byte) :
    (transactionWord (.write off v)).toNat = 2 ^ 18 + off.toNat * 2 ^ 8 + v.toNat := by
  have hoff := off.isLt
  have hv := v.isLt
  rw [transactionWord, BitVec.toNat_append, BitVec.toNat_append, ← Nat.shiftLeft_add_eq_or_of_lt hoff,
    ← Nat.shiftLeft_add_eq_or_of_lt hv, BitVec.toNat_ofNat]
  omega

theorem toNat_transactionWord_read (off : Offset) : (transactionWord (.read off)).toNat = off.toNat * 2 ^ 8 := by
  have hoff := off.isLt
  rw [transactionWord, BitVec.toNat_append, BitVec.toNat_append, ← Nat.shiftLeft_add_eq_or_of_lt hoff,
    ← Nat.shiftLeft_add_eq_or_of_lt (by decide), BitVec.toNat_ofNat, BitVec.toNat_ofNat]
  omega

/-- The three fields of a word written as W, OFF and data. -/
theorem transactionWord_fields (w : BitVec 1) (off : Offset) (v : Byte) :
    (w ++ off ++ v).extractLsb' 8 10 = off ∧ (w ++ off ++ v).extractLsb' 0 8 = v ∧
      (w ++ off ++ v).getLsbD 18 = w.getLsbD 0 := by
  refine ⟨?_, ?_, ?_⟩
  · rw [BitVec.extractLsb'_append_eq_of_le (Nat.le_refl 8), BitVec.extractLsb'_append_eq_right]
  · rw [BitVec.extractLsb'_append_eq_right]
  · rw [BitVec.getLsbD_append, BitVec.getLsbD_append]
    rfl

theorem readTransactionWord_transactionWord (x : Transaction) : readTransactionWord (transactionWord x) = some x := by
  cases x with
  | write off v =>
    obtain ⟨hoff, hv, hw⟩ := transactionWord_fields 1#1 off v
    rw [readTransactionWord, transactionWord, hoff, hv, hw]
    rfl
  | read off =>
    obtain ⟨hoff, hv, hw⟩ := transactionWord_fields 0#1 off 0x00#8
    rw [readTransactionWord, transactionWord, hoff, hv, hw]
    rfl

/-- Settles O6. -/
theorem transactionWordHoldsTheAccess : Obligations.TransactionWordHoldsTheAccess :=
  ⟨toNat_transactionWord_write, toNat_transactionWord_read, readTransactionWord_transactionWord, rfl, rfl, rfl⟩

/-! ## Host statements -/

theorem tempValue_store_same (temps : List Host.Cell) (t : Nat) (v : Byte) :
    tempValue (Memory.store temps t v) t = v := by
  rw [tempValue, Memory.lookup_store_same, Option.getD_some]

theorem tempValue_store_other (temps : List Host.Cell) {t t' : Nat} (v : Byte) (h : t' ≠ t) :
    tempValue (Memory.store temps t v) t' = tempValue temps t' := by
  rw [tempValue, Memory.lookup_store_other temps v h, tempValue]

theorem tempValue_of_lookup {temps : List Host.Cell} {t : Nat} {v : Byte} (h : Memory.lookup temps t = some v) :
    tempValue temps t = v := by
  rw [tempValue, h, Option.getD_some]

/-- The label stands at its position. -/
theorem getElem?_labelPosition {l : Nat} {prog : List Stmt} {pos : Nat} (h : labelPosition l prog = some pos) :
    prog[pos]? = some (.label l) := by
  induction prog generalizing pos with
  | nil => cases h
  | cons st rest ih =>
    rw [labelPosition] at h
    split at h
    · next hst =>
      obtain rfl := Option.some.inj h
      exact congrArg some hst
    · obtain ⟨pos', hpos', rfl⟩ := Option.map_eq_some_iff.1 h
      exact ih hpos'

theorem runStmt_bnz_zero {s : State} {t : Nat} {bit : Fin 8} (l : Nat)
    (h : (tempValue s.host.temps t).getLsbD bit = false) : runStmt (.bnz t bit l) s = .next (hostAdvance s) := by
  simp only [runStmt, h, Bool.false_eq_true, if_false]

theorem runStmt_bnz_one {s : State} {t : Nat} {bit : Fin 8} {l pos : Nat}
    (h : (tempValue s.host.temps t).getLsbD bit = true) (hl : labelPosition l s.host.prog = some pos) :
    runStmt (.bnz t bit l) s = .next (hostJump pos s) := by
  simp only [runStmt, h, if_true, hl]

/-- Settles O33. -/
theorem hostStatementsReadWriteAndBranch : Obligations.HostStatementsReadWriteAndBranch := by
  refine ⟨fun _ _ _ => rfl, fun s off t v hv => ?_, fun s off t => ?_, fun _ _ => rfl, fun _ _ _ => runStmt_bnz_zero,
    fun _ _ _ _ _ hbit hl => ⟨getElem?_labelPosition hl, runStmt_bnz_one hbit hl⟩⟩
  · rw [runStmt, sourceValue, tempValue_of_lookup hv]
  · exact ⟨_, rfl, rfl, rfl, rfl, tempValue_store_same _ _ _, fun _ => tempValue_store_other _ _⟩

/-! ## Faults -/

theorem exec_ne_fault (i : Instr) (s : State) (f : Fault) : exec i s ≠ .fault f := by
  rcases exec_cases i s with ⟨v, h⟩ | ⟨e, h⟩ <;> simp [h]

theorem unitTurn_ne_fault (s : State) (f : Fault) : unitTurn s ≠ .fault f := by
  rw [unitTurn]
  split
  · simp
  · split
    · exact exec_ne_fault _ _ _
    · simp

/-- Only a branch without its label faults. -/
theorem runStmt_fault {st : Stmt} {s : State} {f : Fault} (h : runStmt st s = .fault f) :
    f = .missingLabel ∧ ∃ t bit l, st = .bnz t bit l ∧ labelPosition l s.host.prog = none := by
  cases st with
  | wr | rd | label => cases h
  | bnz t bit l =>
    rw [runStmt] at h
    split at h
    · split at h
      · cases h
      · next hl => exact ⟨(Host.Outcome.fault.inj h).symm, t, bit, l, rfl, hl⟩
    · cases h

theorem hostTurn_fault {s : State} {f : Fault} (h : hostTurn s = .fault f) :
    ∃ st, nextStmt s = some st ∧ runStmt st s = .fault f := by
  rw [hostTurn] at h
  split at h
  · next st hst => exact ⟨st, hst, h⟩
  · cases h

/-- No turn but the host's faults. -/
theorem hostIsNext_of_fault {s : State} {f : Fault} (h : step s = .fault f) : HostIsNext s := by
  rw [step, nextTurn] at h
  split at h
  · next hes =>
    rw [unscheduledTurn] at h
    split at h
    · exact absurd h (unitTurn_ne_fault _ _)
    · next hp => exact .inr ⟨hes, hp⟩
  · next e rest hes =>
    cases e with
    | hostMoves => exact .inl (by rw [hes, List.head?_cons])
    | unitMoves => exact absurd h (unitTurn_ne_fault _ _)
    | reset | wideAccess | unserialisedMaster | undefinedReset => cases h

/-- Settles O44. -/
theorem onlyAMissingLabelFaults : Obligations.OnlyAMissingLabelFaults := by
  intro s f h
  have hhost := hostIsNext_of_fault h
  obtain ⟨st, hst, hrun⟩ := hostTurn_fault ((step_host hhost).symm.trans h)
  obtain ⟨hf, t, bit, l, rfl, hl⟩ := runStmt_fault hrun
  exact ⟨hf, hhost, t, bit, l, hst, hl⟩

/-! ## `exec OP` under the empty schedule -/

/-- The host's next statements are `stmts`. -/
def StandsAt (s : State) (stmts : List Stmt) : Prop :=
  ∀ k, k < stmts.length → s.host.prog[s.host.pos + k]? = stmts[k]?

theorem StandsAt.nextStmt {s : State} {st : Stmt} {rest : List Stmt} (h : StandsAt s (st :: rest)) :
    nextStmt s = some st := h 0 (Nat.succ_pos _)

/-- A host one statement further stands at the statements after the first. -/
theorem StandsAt.tail {s t : State} {st : Stmt} {rest : List Stmt} (h : StandsAt s (st :: rest))
    (hprog : t.host.prog = s.host.prog) (hpos : t.host.pos = s.host.pos + 1) : StandsAt t rest := by
  intro k hk
  have hs := h (k + 1) (Nat.succ_lt_succ hk)
  rw [List.getElem?_cons_succ] at hs
  rw [hprog, hpos, Nat.add_assoc, Nat.add_comm 1 k, hs]

theorem popEvent_of_empty {s : State} (h : s.events = []) : popEvent s = s := by
  rw [popEvent, h, List.tail_nil, ← h]

/-- With the schedule over and no command pending, a step is the host's next statement. -/
theorem step_unscheduled_stmt {s : State} {st : Stmt} {rest : List Stmt} (hev : s.events = []) (hp : s.phase = .idle)
    (hst : StandsAt s (st :: rest)) : step s = runStmt st s := by
  rw [step_runs_stmt (.inr ⟨hev, hp⟩) hst.nextStmt, popEvent_of_empty hev]

/-- A command leaves the host and the schedule, and the phase is IDLE after it. -/
theorem exec_frame {i : Instr} {s t : State} (h : exec i s = .next t) :
    t.host = s.host ∧ t.events = s.events ∧ t.phase = .idle := by
  rcases exec_next h with ⟨v, rfl⟩ | ⟨e, rfl⟩ <;> exact ⟨rfl, rfl, rfl⟩

/-- Where `wait` ends when the first read of STATUS shows BUSY = 0: past the branch, with that read in the temporary. -/
def waitEnd (t : Nat) (s : State) : State :=
  hostAdvance (hostAdvance (hostAssign t (hostRead Off.status s) (hostAdvance s)))

theorem tempValue_waitEnd (t : Nat) (s : State) : tempValue (waitEnd t s).host.temps t = hostRead Off.status s :=
  tempValue_store_same _ _ _

/-- `wait` begun while BUSY = 0 takes its three statements once (30_encoding.md R76). -/
theorem run_pseudoWait {s : State} {l t : Nat} (hev : s.events = []) (hp : s.phase = .idle)
    (hb : Status.busy s.status = false) (hst : StandsAt s (pseudoWait l t)) :
    Host.Core.run core 3 s = .next (waitEnd t s) := by
  have hrd : StandsAt (hostAdvance s) [.rd Off.status t, .bnz t 0 l] := hst.tail rfl rfl
  have hbnz : StandsAt (hostAdvance (hostAssign t (hostRead Off.status s) (hostAdvance s))) [.bnz t 0 l] :=
    hrd.tail rfl rfl
  have hbit : (tempValue (Memory.store s.host.temps t (hostRead Off.status s)) t).getLsbD (0 : Fin 8) = false := by
    rw [tempValue_store_same]
    exact (Status.busy_visible s.status).trans hb
  have hlabel : step s = .next (hostAdvance s) := step_unscheduled_stmt hev hp hst
  have hread : step (hostAdvance s) = .next (hostAdvance (hostAssign t (hostRead Off.status s) (hostAdvance s))) :=
    step_unscheduled_stmt (s := hostAdvance s) hev hp hrd
  have hbranch : step (hostAdvance (hostAssign t (hostRead Off.status s) (hostAdvance s))) = .next (waitEnd t s) :=
    (step_unscheduled_stmt (s := hostAdvance (hostAssign t _ (hostAdvance s))) hev hp hbnz).trans
      (runStmt_bnz_zero l hbit)
  rw [run_next hlabel, run_next hread, run_next hbranch]
  rfl

/-- Settles O34: the write is accepted, the unit completes the command, and `wait` ends at its first read. -/
theorem execPseudoRunsTheCommandAndWaits : Obligations.ExecPseudoRunsTheCommandAndWaits := by
  intro s l t src i hinv hp hev hdec hprog
  have hst : StandsAt s (pseudoExec l t src) := hprog
  have hb : Status.busy s.status = false := by
    rw [← Bool.not_eq_true, hinv.busy_phase, hp]
    exact fun h => h rfl
  have haccept : step s = .next (accept (sourceValue s.host.temps src) (hostAdvance s)) := by
    rw [step_unscheduled_stmt hev hp hst, runStmt, hostWrite_cmd_idle _ hb]
    rfl
  obtain ⟨u, j, hj, hstep, hu, -⟩ :=
    step_completes (s := accept (sourceValue s.host.temps src) (hostAdvance s)) rfl (.inl hev)
  obtain rfl : i = j := Except.ok.inj (hdec.symm.trans hj)
  rw [popEvent_of_empty (s := accept _ (hostAdvance s)) hev] at hu
  obtain ⟨hhost, hevu, hpu⟩ := exec_frame hu
  have hprogu : u.host.prog = s.host.prog := by rw [hhost, accept_host, hostAdvance_host]
  have hposu : u.host.pos = s.host.pos + 1 := by rw [hhost, accept_host, hostAdvance_host]
  have hwait : StandsAt u (pseudoWait l t) := hst.tail hprogu hposu
  refine ⟨u, waitEnd t u, hu, ?_, rfl, hprogu, congrArg (· + 3) hposu, tempValue_waitEnd t u, ?_⟩
  · rw [run_next haccept, run_next hstep, run_pseudoWait (hevu.trans hev) hpu (exec_busy hu) hwait]
  · rw [tempValue_waitEnd]
    exact (Status.busy_visible u.status).trans (exec_busy hu)

end Sys2Proof.Safety
end

section
/-! SUPPORT. The family 40_field.md: multiplication as addition of exponents, the laws of the field, and what the field unit's
commands write; and the proofs of that family's obligations. -/

namespace Sys2Proof.Safety

open Sys2Proof.Machine

/-! ## Addition -/

theorem gadd_eq_xor (a b : Byte) : gadd a b = a ^^^ b := rfl

theorem gadd_comm (a b : Byte) : gadd a b = gadd b a := BitVec.xor_comm a b

theorem gadd_gadd_cancel (a b : Byte) : gadd (gadd a b) b = a := by
  rw [gadd_assoc, gadd_self, gadd_zero_right]

theorem gsub_comm (a b : Byte) : gsub a b = gsub b a := gadd_comm a b

/-- Settles O49. -/
theorem fieldAdditionAndSubtractionAreXor : Obligations.FieldAdditionAndSubtractionAreXor :=
  ⟨gadd_eq_xor, gadd_comm, gadd_gadd_cancel, gsub_eq_gadd⟩

/-! ## The nonzero bytes as powers of three -/

theorem antilogRom_ne_zero (i : Nat) : antilogRom i ≠ 0x00#8 := by
  have rows : ∀ b : Byte, antilogRom b.toNat ≠ 0x00#8 := by decide
  obtain ⟨b, hb⟩ := exists_byte_toNat (i := i % 255) (by omega)
  rw [← antilogRom_mod, ← hb]
  exact rows b

/-- The loop of 10_state.md R37 goes on past the printed rows: the period closes, as 3 times entry 254 is entry 0. -/
theorem antilogRom_add_one (i : Nat) : antilogRom (i + 1) = antilogRom i ^^^ xtimes (antilogRom i) := by
  rw [← antilogRom_mod (i + 1), ← antilogRom_mod i]
  by_cases h : i % 255 = 254
  · rw [h, show (i + 1) % 255 = 0 by omega]
    decide
  · rw [show (i + 1) % 255 = i % 255 + 1 by omega]
    exact antilogRom_succ (by omega)

theorem logRom_antilogRom_mod (i : Nat) : (logRom (antilogRom i)).toNat = i % 255 := by
  rw [← antilogRom_mod]
  exact logRom_antilogRom (by omega)

/-- The case split of every law below. -/
theorem zero_or_antilogRom (a : Byte) : a = 0x00#8 ∨ ∃ i, a = antilogRom i := by
  by_cases ha : a = 0x00#8
  · exact .inl ha
  · exact .inr ⟨(logRom a).toNat, (antilogRom_logRom ha).symm⟩

/-! ## Multiplication -/

theorem gmul_of_eq_zero {a b : Byte} (h : a = 0x00#8 ∨ b = 0x00#8) : gmul a b = 0x00#8 := if_pos h

theorem gmul_of_ne_zero {a b : Byte} (ha : a ≠ 0x00#8) (hb : b ≠ 0x00#8) :
    gmul a b = antilogRom ((logRom a).toNat + (logRom b).toNat) :=
  if_neg (not_or.2 ⟨ha, hb⟩)

/-- Multiplication adds exponents. -/
theorem gmul_antilogRom (i j : Nat) : gmul (antilogRom i) (antilogRom j) = antilogRom (i + j) := by
  rw [gmul_of_ne_zero (antilogRom_ne_zero i) (antilogRom_ne_zero j), logRom_antilogRom_mod, logRom_antilogRom_mod,
    ← antilogRom_mod, ← Nat.add_mod, antilogRom_mod]

theorem gmul_comm (a b : Byte) : gmul a b = gmul b a := by
  rcases zero_or_antilogRom a with rfl | ⟨i, rfl⟩
  · simp
  rcases zero_or_antilogRom b with rfl | ⟨j, rfl⟩
  · simp
  rw [gmul_antilogRom, gmul_antilogRom, Nat.add_comm]

theorem gmul_assoc (a b c : Byte) : gmul (gmul a b) c = gmul a (gmul b c) := by
  rcases zero_or_antilogRom a with rfl | ⟨i, rfl⟩
  · simp
  rcases zero_or_antilogRom b with rfl | ⟨j, rfl⟩
  · simp
  rcases zero_or_antilogRom c with rfl | ⟨k, rfl⟩
  · simp
  simp only [gmul_antilogRom, Nat.add_assoc]

@[simp] theorem one_gmul (a : Byte) : gmul 0x01#8 a = a := by
  rcases zero_or_antilogRom a with rfl | ⟨i, rfl⟩
  · simp
  · exact (gmul_antilogRom 0 i).trans (by rw [Nat.zero_add])

@[simp] theorem gmul_one (a : Byte) : gmul a 0x01#8 = a := by rw [gmul_comm, one_gmul]

theorem eq_zero_of_gmul_eq_zero {a b : Byte} (h : gmul a b = 0x00#8) : a = 0x00#8 ∨ b = 0x00#8 := by
  by_contra hne
  obtain ⟨ha, hb⟩ := not_or.1 hne
  rw [gmul_of_ne_zero ha hb] at h
  exact antilogRom_ne_zero _ h

/-! ## The polynomial product -/

theorem polyProductBits_zero_left (n : Nat) (b : Byte) : polyProductBits n 0x00#8 b = 0x00#8 := by
  simpa using polyProductBits_xor n 0x00#8 0x00#8 b

theorem polyProductBits_zero_right (n : Nat) (a : Byte) : polyProductBits n a 0x00#8 = 0x00#8 := by
  induction n generalizing a with
  | zero => rfl
  | succ n ih => simp [polyProductBits, ih]

theorem one_polyProduct : ∀ b : Byte, polyProduct 0x01#8 b = b := by decide

@[simp] theorem xtimes_zero : xtimes 0x00#8 = 0x00#8 := by decide

theorem polyProductBits_xtimes (n : Nat) (a b : Byte) :
    polyProductBits n (xtimes a) b = xtimes (polyProductBits n a b) := by
  induction n generalizing a b with
  | zero => exact xtimes_zero.symm
  | succ n ih =>
    rw [polyProductBits, polyProductBits, ih, xtimes_xor]
    cases b.getLsbD 0 <;> simp

/-- Both factors of the polynomial product as powers of three: the next power of the first factor is three times it, and the
product is linear in its first factor. -/
theorem polyProduct_antilogRom (i j : Nat) : polyProduct (antilogRom i) (antilogRom j) = antilogRom (i + j) := by
  induction i with
  | zero => rw [Nat.zero_add]; exact one_polyProduct (antilogRom j)
  | succ i ih =>
    calc polyProduct (antilogRom (i + 1)) (antilogRom j)
      _ = polyProduct (antilogRom i) (antilogRom j) ^^^ xtimes (polyProduct (antilogRom i) (antilogRom j)) := by
        rw [antilogRom_add_one, polyProduct, polyProductBits_xor, polyProductBits_xtimes, ← polyProduct]
      _ = antilogRom (i + 1 + j) := by rw [ih, ← antilogRom_add_one, Nat.add_right_comm]

/-- Settles O53: both products are zero with a zero factor, and add the exponents of two powers of three. -/
theorem tableProductIsThePolynomialProduct : Obligations.TableProductIsThePolynomialProduct := by
  intro a b
  rcases zero_or_antilogRom a with rfl | ⟨i, rfl⟩
  · rw [gmul_zero_left, polyProduct, polyProductBits_zero_left]
  rcases zero_or_antilogRom b with rfl | ⟨j, rfl⟩
  · rw [gmul_zero_right, polyProduct, polyProductBits_zero_right]
  rw [gmul_antilogRom, polyProduct_antilogRom]

/-- The table product distributes because it is the polynomial product, which is linear. -/
theorem gmul_gadd (a b c : Byte) : gmul a (gadd b c) = gadd (gmul a b) (gmul a c) := by
  rw [gmul_comm a, gmul_comm a, gmul_comm a]
  simp only [tableProductIsThePolynomialProduct _ a]
  exact polyProductBits_xor 8 b c a

/-! ## Division -/

/-- Division is multiplication by the inverse. -/
theorem gdiv_eq_gmul_gdiv_one (a b : Byte) : gdiv a b = gmul a (gdiv 0x01#8 b) := by
  rw [gdiv, gdiv, one_gmul]

theorem gmul_gdiv_one {b : Byte} (hb : b ≠ 0x00#8) : gmul b (gdiv 0x01#8 b) = 0x01#8 := by
  have hle : (logRom b).toNat ≤ 255 := Nat.le_succ_of_le (logRom_le hb)
  calc gmul b (gdiv 0x01#8 b)
    _ = gmul (antilogRom (logRom b).toNat) (antilogRom (255 - (logRom b).toNat)) := by
      rw [antilogRom_logRom hb, gdiv, one_gmul]
    _ = antilogRom 255 := by rw [gmul_antilogRom, Nat.add_sub_cancel' hle]
    _ = 0x01#8 := rfl

theorem gdiv_gmul_cancel (a : Byte) {b : Byte} (hb : b ≠ 0x00#8) : gdiv (gmul a b) b = a := by
  rw [gdiv_eq_gmul_gdiv_one, gmul_assoc, gmul_gdiv_one hb, gmul_one]

theorem gmul_gdiv_cancel (a : Byte) {b : Byte} (hb : b ≠ 0x00#8) : gmul (gdiv a b) b = a := by
  rw [gdiv_eq_gmul_gdiv_one, gmul_assoc, gmul_comm _ b, gmul_gdiv_one hb, gmul_one]

theorem eq_gdiv_of_gmul_eq {a b c : Byte} (hb : b ≠ 0x00#8) (h : gmul b c = a) : c = gdiv a b := by
  rw [← h, gmul_comm, gdiv_gmul_cancel c hb]

theorem gdiv_self {b : Byte} (hb : b ≠ 0x00#8) : gdiv b b = 0x01#8 :=
  (eq_gdiv_of_gmul_eq hb (gmul_one b)).symm

@[simp] theorem gdiv_one (a : Byte) : gdiv a 0x01#8 = a :=
  (eq_gdiv_of_gmul_eq (by decide) (one_gmul a)).symm

/-- Settles O52: by the ranges of the LOG entries. -/
theorem fieldProductsStayInsideTheTables : Obligations.FieldProductsStayInsideTheTables := by
  refine ⟨fun _ _ => gmul_of_eq_zero, fun a b ha hb => ⟨gmul_of_ne_zero ha hb, ?_⟩,
    fun a b hb => ⟨_, rfl, ?_, Nat.sub_le _ _, rfl⟩, fun b _ => gdiv_zero_left b⟩
  · have hla := logRom_le ha
    have hlb := logRom_le hb
    omega
  · have hlb := logRom_le hb
    omega

/-- Settles O54. -/
theorem fieldLawsHold : Obligations.FieldLawsHold :=
  ⟨fun a b => ⟨gadd_comm a b, gadd_gadd_cancel a b⟩, gadd_gadd_cancel,
    fun a _ hb => ⟨gdiv_gmul_cancel a hb, gmul_gdiv_cancel a hb⟩, gmul_comm, gmul_assoc, gmul_gadd, one_gmul,
    fun _ _ => eq_zero_of_gmul_eq_zero, fun _ hb => ⟨gmul_gdiv_one hb, fun _ => eq_gdiv_of_gmul_eq hb⟩⟩

/-! ## What the field unit's commands write -/

theorem exec_nop (s : State) : exec .nop s = .next (doneWith s.r s) :=
  congrArg Host.Outcome.next (complete_eq_doneWith _ s)

theorem exec_add (s : State) : exec .add s = .next (doneWith (gadd s.a s.b) s) :=
  congrArg Host.Outcome.next (complete_eq_doneWith _ s)

theorem exec_sub (s : State) : exec .sub s = .next (doneWith (gsub s.a s.b) s) :=
  congrArg Host.Outcome.next (complete_eq_doneWith _ s)

theorem exec_mul (s : State) : exec .mul s = .next (doneWith (gmul s.a s.b) s) :=
  congrArg Host.Outcome.next (complete_eq_doneWith _ s)

theorem exec_deg (s : State) :
    exec .deg s = .next (doneWith (BitVec.ofNat 8 (scanDegree s.coef (s.len.toNat - 1))) s) :=
  congrArg Host.Outcome.next (complete_eq_doneWith _ s)

theorem exec_div_of_ne_zero {s : State} (hb : s.b ≠ 0x00#8) : exec .div s = .next (doneWith (gdiv s.a s.b) s) := by
  rw [exec_div, if_neg hb, complete_eq_doneWith]

theorem exec_div_of_eq_zero {s : State} (hb : s.b = 0x00#8) : exec .div s = .next (divzeroIn s) := by
  rw [exec_div, if_pos hb, raiseError_divzero]

/-- Settles O10. -/
theorem nopCompletesAndKeepsR : Obligations.NopCompletesAndKeepsR := by
  refine ⟨decodeOfEncodeIsTheCommand .nop rfl, exec_nop, fun _ => rfl, fun s hr hst => ⟨_, exec_nop s, hr, ?_⟩⟩
  have hread : hostRead Off.status (doneWith s.r s) = Status.visible ((s.status &&& 0xC0#8) ||| 0x02#8) := rfl
  rw [hread, hst]
  decide

/-- Settles O11. -/
theorem addWritesTheExclusiveOr : Obligations.AddWritesTheExclusiveOr := by
  refine ⟨decodeOfEncodeIsTheCommand .add rfl, exec_add, fun s h => ?_, fun s h => ?_, fun s ha hb => ?_⟩
  · rw [exec_add, h, gadd_self]
  · rw [exec_add, h, gadd_zero_left]
  · rw [exec_add, ha, hb]
    rfl

/-- Settles O12. -/
theorem subWritesTheExclusiveOr : Obligations.SubWritesTheExclusiveOr := by
  refine ⟨decodeOfEncodeIsTheCommand .sub rfl, exec_sub, fun s => ?_, gsub_comm, fun s ha hb => ?_⟩
  · rw [exec_sub, exec_add, gsub_eq_gadd]
  · rw [exec_sub, ha, hb]
    rfl

/-- Settles O13: the corner cases by the field's laws, the two examples by the tables. -/
theorem mulWritesTheFieldProduct : Obligations.MulWritesTheFieldProduct := by
  have hlog : logRom 0xF6#8 = 254#8 := by decide
  refine ⟨decodeOfEncodeIsTheCommand .mul rfl, exec_mul, fun s h => ?_, fun s h => ?_, ⟨hlog, rfl, fun s ha hb => ?_⟩,
    fun s ha hb => ?_⟩
  · rw [exec_mul, gmul_of_eq_zero h]
  · rw [exec_mul, h, one_gmul]
  · rw [exec_mul, ha, hb, gmul_of_ne_zero (by decide) (by decide), hlog]
    rfl
  · rw [exec_mul, ha, hb, show gmul 90#8 21#8 = 254#8 by decide]

/-- Settles O14: the corner cases by the field's laws; 1 / 2 and 2 / 1 differ. -/
theorem divWritesTheQuotientOrRaisesDivzero : Obligations.DivWritesTheQuotientOrRaisesDivzero := by
  refine ⟨decodeOfEncodeIsTheCommand .div rfl, fun s => exec_div_of_ne_zero, fun s => exec_div_of_eq_zero,
    fun s ha hb => ?_, ⟨by decide, rfl, fun s hb => ?_⟩, fun s hab hb => ?_,
    ⟨0x01#8, 0x02#8, by decide, by decide, by decide⟩, fun s ha hb => ?_⟩
  · rw [exec_div_of_ne_zero hb, ha, gdiv_zero_left]
  · rw [exec_div_of_ne_zero (by rw [hb]; decide), hb, gdiv_one]
  · rw [exec_div_of_ne_zero hb, hab, gdiv_self hb]
  · rw [exec_div_of_ne_zero (by rw [hb]; decide), ha, hb, show gdiv 90#8 21#8 = 189#8 by decide]

/-! ## The degree index -/

/-- The scan from LEN - 1 down finds a degree index. -/
theorem isDegree_scanDegree (s : State) : IsDegree s (scanDegree s.coef (s.len.toNat - 1)) := by
  obtain ⟨hle, habove, hat⟩ := scanDegree_spec s.coef (s.len.toNat - 1)
  refine ⟨fun i hi hlen => habove i hi (by omega), ?_⟩
  by_cases h0 : scanDegree s.coef (s.len.toNat - 1) = 0
  · exact .inl h0
  · exact .inr ⟨by omega, hat.resolve_left h0⟩

/-- A larger degree index would have a zero coefficient by the smaller one's claim. -/
theorem IsDegree.le {s : State} {d e : Nat} (hd : IsDegree s d) (he : IsDegree s e) : e ≤ d := by
  by_contra hlt
  rcases he.2 with h0 | ⟨hlen, hne⟩
  · omega
  · exact hne (hd.1 e (by omega) hlen)

theorem exec_deg_of_isDegree {s : State} {d : Nat} (h : IsDegree s d) :
    exec .deg s = .next (doneWith (BitVec.ofNat 8 d) s) := by
  rw [exec_deg, Nat.le_antisymm (h.le (isDegree_scanDegree s)) ((isDegree_scanDegree s).le h)]

theorem isDegree_zero_of_len_le_one {s : State} (h : s.len.toNat ≤ 1) : IsDegree s 0 :=
  ⟨fun i _ _ => by omega, .inl rfl⟩

/-- Settles O15: the scan's result is the only degree index. -/
theorem degWritesTheDegreeIndex : Obligations.DegWritesTheDegreeIndex := by
  refine ⟨decodeOfEncodeIsTheCommand .deg rfl, fun s d => exec_deg_of_isDegree,
    fun s => ⟨_, ?_, isDegree_scanDegree s⟩, fun s h => ?_, fun s hlen _ h1 h2 => exec_deg_of_isDegree (d := 1) ?_⟩
  · have hle := (scanDegree_spec s.coef (s.len.toNat - 1)).1
    have hlen := s.len.isLt
    omega
  · exact exec_deg_of_isDegree (d := 0) (isDegree_zero_of_len_le_one (by rcases h with h | h <;> simp [h]))
  · have hn : s.len.toNat = 3 := by rw [hlen]; rfl
    refine ⟨fun i hi hlt => ?_, .inr ⟨by omega, by rw [h1]; decide⟩⟩
    obtain rfl : i = 2 := by omega
    exact h2

end Sys2Proof.Safety
end

section
/-! SUPPORT. The family 41_polynomial.md: Horner's method computes the polynomial's value; the bytes are a field, over which INTERP
evaluates Mathlib's Lagrange interpolation at 0; and the proofs of that family's obligations. -/

namespace Sys2Proof.Safety

open Sys2Proof.Machine

/-! ## The polynomial's value -/

@[simp] theorem power_one (i : Nat) : power 0x01#8 i = 0x01#8 := by
  induction i with
  | zero => rfl
  | succ i ih => rw [power, ih, gmul_one]

/-- At 0 only the constant term counts. -/
theorem polyValue_at_zero (c : Nat → Byte) {n : Nat} (hn : 1 ≤ n) : polyValue c 0x00#8 n = c 0 := by
  obtain ⟨m, rfl⟩ := Nat.exists_eq_add_of_le' hn
  clear hn
  induction m with
  | zero => simp [polyValue, power]
  | succ m ih => rw [polyValue, ih, power, gmul_zero_right, gmul_zero_right, gadd_zero_right]

/-- At 1 the value is the sum of the coefficients. -/
theorem polyValue_at_one (c : Nat → Byte) (n : Nat) :
    polyValue c 0x01#8 n = ((List.range n).map c).foldl (· ^^^ ·) 0x00#8 := by
  induction n with
  | zero => rfl
  | succ n ih => simp [polyValue, List.range_succ, ih, gadd_eq_xor]

theorem polyValue_congr {c d : Nat → Byte} {n : Nat} (x : Byte) (h : ∀ i, i < n → c i = d i) :
    polyValue c x n = polyValue d x n := by
  induction n with
  | zero => rfl
  | succ n ih => rw [polyValue, polyValue, ih fun i hi => h i (Nat.lt_succ_of_lt hi), h n n.lt_succ_self]

/-- Zero coefficients above the given ones do not change the value. -/
theorem polyValue_of_trailing_zeros {c : Nat → Byte} {n m : Nat} (x : Byte) (hnm : n ≤ m)
    (hz : ∀ i, n ≤ i → i < m → c i = 0x00#8) : polyValue c x m = polyValue c x n := by
  induction m, hnm using Nat.le_induction with
  | base => rfl
  | succ m hnm ih =>
    rw [polyValue, ih fun i hi him => hz i hi (Nat.lt_succ_of_lt him), hz m hnm m.lt_succ_self, gmul_zero_left,
      gadd_zero_right]

/-- The coefficients below index `n`, and 0 from there on. -/
def padded (c : Nat → Byte) (n i : Nat) : Byte := if i < n then c i else 0x00#8

theorem padded_of_lt {c : Nat → Byte} {n i : Nat} (h : i < n) : padded c n i = c i := if_pos h

theorem padded_of_le {c : Nat → Byte} {n i : Nat} (h : n ≤ i) : padded c n i = 0x00#8 := if_neg (Nat.not_lt.2 h)

theorem polyValue_padded (c : Nat → Byte) (x : Byte) {n m : Nat} (hnm : n ≤ m) :
    polyValue (padded c n) x m = polyValue c x n := by
  rw [polyValue_of_trailing_zeros x hnm fun i hi _ => padded_of_le hi, polyValue_congr x fun i => padded_of_lt]

/-! ## Horner's method -/

/-- A coefficient above the given ones adds its own term: it passes through one multiplication per coefficient below it. -/
theorem horner_append_singleton (x c : Byte) (cs : List Byte) :
    horner x (cs ++ [c]) = gadd (horner x cs) (gmul c (power x cs.length)) := by
  induction cs with
  | nil => simp [power]
  | cons d ds ih =>
    have hdistrib : gmul (gadd (horner x ds) (gmul c (power x ds.length))) x =
        gadd (gmul (horner x ds) x) (gmul c (power x (ds.length + 1))) := by
      rw [gmul_comm _ x, gmul_gadd, gmul_comm x, gmul_comm x, gmul_assoc, power]
    rw [List.cons_append, horner_cons, ih, hdistrib, horner_cons, List.length_cons, gadd_assoc, gadd_assoc, gadd_comm d]

theorem horner_map_range (x : Byte) (c : Nat → Byte) (n : Nat) :
    horner x ((List.range n).map c) = polyValue c x n := by
  induction n with
  | zero => rfl
  | succ n ih => simp [List.range_succ, horner_append_singleton, ih, polyValue]

/-- One iteration of EVAL's loop, on the coefficients from index `i` up. -/
theorem horner_drop (x : Byte) (s : State) {i : Nat} (hi : i < s.len.toNat) :
    horner x (s.coefficients.drop i) = gadd (gmul (horner x (s.coefficients.drop (i + 1))) x) (s.coef i) := by
  rw [State.coefficients, List.drop_eq_getElem_cons (by simpa using hi), horner_cons]
  simp

theorem horner_drop_len (x : Byte) (s : State) : horner x (s.coefficients.drop s.len.toNat) = 0x00#8 := by
  rw [List.drop_of_length_le (by simp [State.coefficients]), horner_nil]

theorem exec_eval (s : State) : exec .eval s = .next (doneWith (horner s.a s.coefficients) s) :=
  congrArg Host.Outcome.next (complete_eq_doneWith _ s)

/-- Settles O55. -/
theorem evalComputesThePolynomialsValue : Obligations.EvalComputesThePolynomialsValue := by
  intro s
  rw [exec_eval, State.coefficients, horner_map_range]

/-- Settles O16: the loop's value at index `i` is Horner's on the coefficients from `i` up; the corner cases are those of the
polynomial's value. -/
theorem evalRunsHornersRecurrence : Obligations.EvalRunsHornersRecurrence := by
  have hval := evalComputesThePolynomialsValue
  refine ⟨decodeOfEncodeIsTheCommand .eval rfl,
    fun s => ⟨fun i => horner s.a (s.coefficients.drop i), horner_drop_len s.a s, fun i => horner_drop s.a s, exec_eval s⟩,
    fun s hlen => ?_, fun s hlen => ?_, fun s hlen ha => ?_, fun s ha => ?_, fun s t ha hle hc hz => ?_,
    fun s hlen h0 h1 h2 h3 ha => ?_⟩
  · rw [hval, hlen]
    rfl
  · rw [hval, hlen]
    simp [polyValue, power]
  · have hpos : 1 ≤ s.len.toNat := by bv_omega
    rw [hval, ha, polyValue_at_zero _ hpos]
  · rw [hval, ha, polyValue_at_one, State.coefficients]
  · refine ⟨_, hval s, ?_⟩
    rw [hval, ← ha, polyValue_of_trailing_zeros _ hle hz, polyValue_congr _ hc]
  · have hcs : s.coefficients = [1#8, 0#8, 2#8, 3#8] := by simp [State.coefficients, hlen, List.range_succ, h0, h1, h2, h3]
    rw [exec_eval, ha, hcs, show horner 2#8 [1#8, 0#8, 2#8, 3#8] = 17#8 by decide]

/-! ## The bytes as a field

Mathlib's ring on `Byte` is that of the integers modulo 256. So the field of 40_field.md is kept apart from it: a type `K` with
field laws, whose elements the bytes name. -/

/-- `φ` names a field's elements by bytes, and `gadd` and `gmul` are its sum and product. -/
structure NamesField {K : Type} [Field K] (φ : Byte → K) : Prop where
  injective : Function.Injective φ
  map_zero : φ 0x00#8 = 0
  map_one : φ 0x01#8 = 1
  map_gadd : ∀ a b, φ (gadd a b) = φ a + φ b
  map_gmul : ∀ a b, φ (gmul a b) = φ a * φ b

/-- The inverse, with 0 for its own: division is defined for nonzero divisors only (40_field.md R95). -/
def byteInv (b : Byte) : Byte := if b = 0x00#8 then 0x00#8 else gdiv 0x01#8 b

@[simp] theorem byteInv_zero : byteInv 0x00#8 = 0x00#8 := if_pos rfl

theorem gmul_byteInv {b : Byte} (hb : b ≠ 0x00#8) : gmul b (byteInv b) = 0x01#8 := by
  rw [byteInv, if_neg hb, gmul_gdiv_one hb]

/-- The field laws of 40_field.md R98. -/
abbrev byteField : Field Byte :=
  @Field.ofMinimalAxioms Byte ⟨gadd⟩ ⟨gmul⟩ ⟨id⟩ ⟨byteInv⟩ ⟨0x00#8⟩ ⟨0x01#8⟩ gadd_assoc gadd_zero_left gadd_self gmul_assoc
    gmul_comm one_gmul (fun _ => gmul_byteInv) byteInv_zero gmul_gadd ⟨0x00#8, 0x01#8, by decide⟩

theorem exists_namesField : ∃ (K : Type) (_ : Field K) (φ : Byte → K), NamesField φ :=
  ⟨Byte, byteField, id, @NamesField.mk Byte byteField id Function.injective_id rfl rfl (fun _ _ => rfl) fun _ _ => rfl⟩

theorem gsub_ne_zero {a b : Byte} (h : a ≠ b) : gsub a b ≠ 0x00#8 := fun h0 => h (BitVec.xor_eq_zero_iff.1 h0)

section

variable {K : Type} [Field K] {φ : Byte → K}

theorem NamesField.map_gsub (h : NamesField φ) (a b : Byte) : φ (gsub a b) = φ a - φ b := by
  rw [eq_sub_iff_add_eq, ← h.map_gadd, gsub_eq_gadd, gadd_gadd_cancel]

theorem NamesField.map_gdiv (h : NamesField φ) (a : Byte) {b : Byte} (hb : b ≠ 0x00#8) : φ (gdiv a b) = φ a / φ b := by
  have hφb : φ b ≠ 0 := fun h0 => hb (h.injective (h0.trans h.map_zero.symm))
  rw [eq_div_iff hφb, ← h.map_gmul, gmul_gdiv_cancel a hb]

theorem NamesField.map_power (h : NamesField φ) (x : Byte) (i : Nat) : φ (power x i) = φ x ^ i := by
  induction i with
  | zero => rw [power, h.map_one, pow_zero]
  | succ i ih => rw [power, h.map_gmul, ih, pow_succ]

theorem NamesField.map_foldl_gadd (h : NamesField φ) (f : Nat → Byte) (n : Nat) :
    φ ((List.range n).foldl (fun acc i => gadd acc (f i)) 0x00#8) = ∑ i ∈ Finset.range n, φ (f i) := by
  induction n with
  | zero => exact h.map_zero
  | succ n ih => rw [List.range_succ, List.foldl_concat, h.map_gadd, ih, Finset.sum_range_succ]

theorem NamesField.map_foldl_gmul (h : NamesField φ) (p : Nat → Prop) [DecidablePred p] (f : Nat → Byte) (n : Nat) :
    φ ((List.range n).foldl (fun acc j => if p j then gmul acc (f j) else acc) 0x01#8) =
      ∏ j ∈ Finset.range n with p j, φ (f j) := by
  rw [Finset.prod_filter]
  induction n with
  | zero => exact h.map_one
  | succ n ih => rw [List.range_succ, List.foldl_concat, Finset.prod_range_succ, apply_ite φ, h.map_gmul, ih, mul_ite, mul_one]

/-! ## Polynomials over that field -/

open Polynomial in
/-- The polynomial with `n` coefficients, the constant term first. -/
noncomputable def polynomialOf (φ : Byte → K) (c : Nat → Byte) (n : Nat) : K[X] :=
  ∑ k : Fin n, C (φ (c k)) * X ^ (k : Nat)

theorem degree_polynomialOf_lt (φ : Byte → K) (c : Nat → Byte) (n : Nat) : (polynomialOf φ c n).degree < n :=
  Polynomial.degree_sum_fin_lt _

theorem NamesField.eval_polynomialOf (h : NamesField φ) (c : Nat → Byte) (x : Byte) (n : Nat) :
    (polynomialOf φ c n).eval (φ x) = φ (polyValue c x n) := by
  induction n with
  | zero => simp [polynomialOf, polyValue, h.map_zero]
  | succ n ih =>
    rw [polyValue, h.map_gadd, h.map_gmul, h.map_power, ← ih]
    simp [polynomialOf, Fin.sum_univ_castSucc]

/-! ## INTERP as Lagrange interpolation -/

/-- The nodes of the interpolation are distinct as the x of the points are. -/
theorem NamesField.injOn_comp (h : NamesField φ) {px : Nat → Byte} {S : Set Nat} (hd : S.InjOn px) : S.InjOn (φ ∘ px) :=
  h.injective.injOn.comp hd (S.mapsTo_univ px)

theorem NamesField.map_basisAtZero (h : NamesField φ) {px : Nat → Byte} {n i : Nat}
    (hd : Set.InjOn px (Finset.range n)) (hi : i < n) :
    φ (basisAtZero n px i) = (Lagrange.basis (Finset.range n) (φ ∘ px) i).eval 0 := by
  rw [basisAtZero, h.map_foldl_gmul, Finset.filter_ne', Lagrange.basis, Polynomial.eval_prod]
  refine Finset.prod_congr rfl fun j hj => ?_
  obtain ⟨hji, hjn⟩ := Finset.mem_erase.1 hj
  have hne : px i ≠ px j := fun heq => hji (hd (Finset.mem_range.2 hi) hjn heq).symm
  rw [h.map_gdiv _ (gsub_ne_zero hne), h.map_gsub, h.map_gsub, h.map_zero, Lagrange.basisDivisor]
  simp [div_eq_inv_mul]

theorem NamesField.map_interpolateAtZero (h : NamesField φ) {px : Nat → Byte} (py : Nat → Byte) {n : Nat}
    (hd : Set.InjOn px (Finset.range n)) :
    φ (interpolateAtZero n px py) = (Lagrange.interpolate (Finset.range n) (φ ∘ px) (φ ∘ py)).eval 0 := by
  rw [interpolateAtZero, h.map_foldl_gadd, Lagrange.interpolate_apply, Polynomial.eval_finsetSum]
  refine Finset.sum_congr rfl fun i hi => ?_
  rw [h.map_gmul, h.map_basisAtZero hd (Finset.mem_range.1 hi), Polynomial.eval_mul, Polynomial.eval_C, mul_comm,
    Function.comp_apply]

end

/-- Points on a polynomial with at most as many coefficients have its value at 0. -/
theorem interpolateAtZero_of_polyValue {px py c : Nat → Byte} {n : Nat} (hd : Set.InjOn px (Finset.range n))
    (hp : ∀ i, i < n → polyValue c (px i) n = py i) : interpolateAtZero n px py = polyValue c 0x00#8 n := by
  obtain ⟨K, _, φ, h⟩ := exists_namesField
  have hpoly : polynomialOf φ c n = Lagrange.interpolate (Finset.range n) (φ ∘ px) (φ ∘ py) := by
    refine Lagrange.eq_interpolate_of_eval_eq _ (h.injOn_comp hd) ?_ fun i hi => ?_
    · rw [Finset.card_range]
      exact degree_polynomialOf_lt φ c n
    · rw [Function.comp_apply, h.eval_polynomialOf, hp i (Finset.mem_range.1 hi), Function.comp_apply]
  apply h.injective
  rw [h.map_interpolateAtZero py hd, ← hpoly, ← h.eval_polynomialOf, h.map_zero]

/-- A point at 0 already tells the value there. -/
theorem interpolateAtZero_of_px_eq_zero {px : Nat → Byte} (py : Nat → Byte) {n i : Nat}
    (hd : Set.InjOn px (Finset.range n)) (hi : i < n) (hx : px i = 0x00#8) : interpolateAtZero n px py = py i := by
  obtain ⟨K, _, φ, h⟩ := exists_namesField
  have hnode : (0 : K) = (φ ∘ px) i := by rw [Function.comp_apply, hx, h.map_zero]
  apply h.injective
  rw [h.map_interpolateAtZero py hd, hnode, Lagrange.eval_interpolate_at_node _ (h.injOn_comp hd) (Finset.mem_range.2 hi),
    Function.comp_apply]

/-- Points drawn without repetition from the given ones lie on the same interpolation polynomial. -/
theorem interpolateAtZero_reorder {px py px' py' : Nat → Byte} {σ : Nat → Nat} {n : Nat}
    (hd : Set.InjOn px (Finset.range n)) (hd' : Set.InjOn px' (Finset.range n)) (hσ : ∀ i, i < n → σ i < n)
    (hx : ∀ i, i < n → px' i = px (σ i)) (hy : ∀ i, i < n → py' i = py (σ i)) :
    interpolateAtZero n px' py' = interpolateAtZero n px py := by
  obtain ⟨K, _, φ, h⟩ := exists_namesField
  have hpoly : Lagrange.interpolate (Finset.range n) (φ ∘ px) (φ ∘ py) =
      Lagrange.interpolate (Finset.range n) (φ ∘ px') (φ ∘ py') := by
    refine Lagrange.eq_interpolate_of_eval_eq _ (h.injOn_comp hd') (Lagrange.degree_interpolate_lt _ (h.injOn_comp hd))
      fun i hi => ?_
    have hi' := Finset.mem_range.1 hi
    rw [Function.comp_apply, Function.comp_apply, hx i hi', hy i hi']
    exact Lagrange.eval_interpolate_at_node _ (h.injOn_comp hd) (Finset.mem_range.2 (hσ i hi'))
  apply h.injective
  rw [h.map_interpolateAtZero py' hd', h.map_interpolateAtZero py hd, hpoly]

/-! ## The order of the loops -/

/-- The basis of point `i`, its factors taken in the order `inner`. -/
theorem basisAtZero_eq_foldl_of_perm (px : Nat → Byte) {inner : List Nat} {n : Nat} (hp : inner.Perm (List.range n))
    (i : Nat) :
    inner.foldl (fun basis j =>
      if j = i then basis else gmul basis (gdiv (gsub 0x00#8 (px j)) (gsub (px i) (px j)))) 0x01#8 =
    basisAtZero n px i := by
  simp only [basisAtZero, ite_not, ne_eq]
  refine hp.foldl_eq' (fun j _ k _ b => ?_) _
  split
  · rfl
  · split
    · rfl
    · rw [gmul_assoc, gmul_assoc, gmul_comm (gdiv _ _)]

/-- The sum, its terms taken in the given order. -/
theorem foldl_gadd_of_perm (f : Nat → Byte) {order l : List Nat} (hp : order.Perm l) :
    order.foldl (fun acc i => gadd acc (f i)) 0x00#8 = l.foldl (fun acc i => gadd acc (f i)) 0x00#8 :=
  hp.foldl_eq' (fun i _ j _ acc => by rw [gadd_assoc, gadd_assoc, gadd_comm (f i)]) _

/-! ## INTERP -/

theorem distinctX_iff_injOn {s : State} : DistinctX s ↔ Set.InjOn s.px (Finset.range s.npts.toNat) := by
  refine ⟨fun h i hi j hj heq => by_contra fun hne => h i j (Finset.mem_range.1 hi) (Finset.mem_range.1 hj) hne heq,
    fun h i j hi hj hne heq => hne (h (Finset.mem_range.2 hi) (Finset.mem_range.2 hj) heq)⟩

theorem repeatedX_iff_not_distinctX (s : State) : repeatedX s.npts.toNat s.px = true ↔ ¬ DistinctX s := by
  rw [repeatedX_iff, DistinctX]
  push Not
  rfl

theorem exec_interp_of_not_distinctX {s : State} (h : ¬ DistinctX s) : exec .interp s = .next (divzeroIn s) := by
  rw [exec_interp, if_pos ((repeatedX_iff_not_distinctX s).2 h), raiseError_divzero]

theorem exec_interp_of_distinctX {s : State} (h : DistinctX s) :
    exec .interp s = .next (doneWith (interpolateAtZero s.npts.toNat s.px s.py) s) := by
  rw [exec_interp, if_neg fun hr => (repeatedX_iff_not_distinctX s).1 hr h, complete_eq_doneWith]

theorem distinctX_of_npts_le_one {s : State} (h : s.npts.toNat ≤ 1) : DistinctX s :=
  fun i j _ _ _ => by omega

/-- One iteration of the inner loop of point `i`. -/
theorem basisAtZero_succ (n : Nat) (px : Nat → Byte) (i : Nat) :
    basisAtZero (n + 1) px i = if n = i then basisAtZero n px i
      else gmul (basisAtZero n px i) (gdiv (gsub 0x00#8 (px n)) (gsub (px i) (px n))) := by
  rw [basisAtZero, List.range_succ, List.foldl_concat, ite_not, ← basisAtZero]

/-- The accumulator before point `i`. -/
def accBefore (n : Nat) (px py : Nat → Byte) (i : Nat) : Byte :=
  (List.range i).foldl (fun acc k => gadd acc (gmul (basisAtZero n px k) (py k))) 0x00#8

theorem accBefore_all (n : Nat) (px py : Nat → Byte) : accBefore n px py n = interpolateAtZero n px py := rfl

/-- One iteration of the outer loop. -/
theorem accBefore_succ (n : Nat) (px py : Nat → Byte) (i : Nat) :
    accBefore n px py (i + 1) = gadd (accBefore n px py i) (gmul (basisAtZero n px i) (py i)) := by
  rw [accBefore, List.range_succ, List.foldl_concat, ← accBefore]

/-- The points of the example in 41_polynomial.md R123. -/
theorem interpolateAtZero_example_points :
    repeatedX 3 ([1#8, 2#8, 3#8].getD · 0x00#8) = false ∧
    interpolateAtZero 3 ([1#8, 2#8, 3#8].getD · 0x00#8) ([80#8, 90#8, 20#8].getD · 0x00#8) = 30#8 := by decide

/-- Settles O17: the two loops by their partial values; a point at x = 0 is a node of the interpolation at 0. -/
theorem interpRunsLagrangeAtZeroOrRaisesDivzero : Obligations.InterpRunsLagrangeAtZeroOrRaisesDivzero := by
  refine ⟨decodeOfEncodeIsTheCommand .interp rfl, fun s => exec_interp_of_not_distinctX,
    fun s hd => ⟨accBefore s.npts.toNat s.px s.py, fun i j => basisAtZero j s.px i, rfl,
      fun i _ => ⟨rfl, fun j _ => basisAtZero_succ j s.px i, accBefore_succ _ _ _ i⟩,
      by rw [accBefore_all, exec_interp_of_distinctX hd]⟩,
    fun s hn => ?_, fun s hn => ?_, fun s i hd hi hx => ?_, fun s hn hx0 hy0 hx1 hy1 hx2 hy2 => ?_⟩
  · rw [exec_interp_of_distinctX (distinctX_of_npts_le_one (by simp [hn])), hn]
    rfl
  · rw [exec_interp_of_distinctX (distinctX_of_npts_le_one (by simp [hn])), hn]
    simp [interpolateAtZero, basisAtZero, List.range_succ]
  · rw [exec_interp_of_distinctX hd, interpolateAtZero_of_px_eq_zero s.py (distinctX_iff_injOn.1 hd) hi hx]
  · have hx : ∀ k, k < 3 → s.px k = [1#8, 2#8, 3#8].getD k 0x00#8 := by
      intro k hk
      interval_cases k <;> assumption
    have hy : ∀ k, k < 3 → s.py k = [80#8, 90#8, 20#8].getD k 0x00#8 := by
      intro k hk
      interval_cases k <;> assumption
    obtain ⟨hdistinct, hvalue⟩ := interpolateAtZero_example_points
    rw [exec_interp, hn, show (3#8 : Byte).toNat = 3 from rfl, repeatedX_congr hx, interpolateAtZero_congr hx hy, hdistinct,
      hvalue, complete_eq_doneWith, if_neg Bool.false_ne_true]

/-- Settles O56: the value at 0 is the constant term; a shorter polynomial is padded with zero coefficients. -/
theorem interpRecoversTheConstantTerm : Obligations.InterpRecoversTheConstantTerm := by
  have hrecover : ∀ (s : State) (c : Nat → Byte), 1 ≤ s.npts.toNat → DistinctX s →
      (∀ i, i < s.npts.toNat → polyValue c (s.px i) s.npts.toNat = s.py i) →
      exec .interp s = .next (doneWith (c 0) s) := by
    intro s c hn hd hp
    rw [exec_interp_of_distinctX hd, interpolateAtZero_of_polyValue (distinctX_iff_injOn.1 hd) hp, polyValue_at_zero c hn]
  refine ⟨hrecover, fun s e u hd _ he hn => ?_⟩
  obtain ⟨hlen1, hlen, -⟩ := he 0 hn
  have hc0 : padded (e 0).coef (e 0).len.toNat 0 = (e 0).coef 0 := padded_of_lt hlen1
  rw [← hc0]
  refine hrecover s _ hn hd fun i hi => ?_
  obtain ⟨-, -, hleni, hcoef, ha, hu, hr⟩ := he i hi
  have hui := Host.Outcome.next.inj ((evalComputesThePolynomialsValue (e i)).symm.trans hu)
  calc polyValue (padded (e 0).coef (e 0).len.toNat) (s.px i) s.npts.toNat
    _ = polyValue (e 0).coef (s.px i) (e i).len.toNat := by rw [polyValue_padded _ _ hlen, hleni]
    _ = polyValue (e i).coef (e i).a (e i).len.toNat := by rw [ha, polyValue_congr _ hcoef]
    _ = s.py i := by rw [← hr, ← hui]; rfl

/-- Settles O57: the reordered points have one interpolation polynomial with the given ones; the loops' operations commute. -/
theorem interpDoesNotDependOnAnyOrder : Obligations.InterpDoesNotDependOnAnyOrder := by
  refine ⟨fun s t σ hn hd hlt hinj hpt => ?_, fun s order inner hd horder hinner => ?_⟩
  · have hdt : DistinctX t := by
      rw [DistinctX, ← hn]
      intro i j hi hj hij hx
      rw [(hpt i hi).1, (hpt j hj).1] at hx
      exact hd _ _ (hlt i hi) (hlt j hj) (fun h => hij (hinj i j hi hj h)) hx
    refine ⟨_, exec_interp_of_distinctX hd, ?_⟩
    rw [exec_interp_of_distinctX hdt, ← hn, interpolateAtZero_reorder (distinctX_iff_injOn.1 hd)
      (hn ▸ distinctX_iff_injOn.1 hdt) hlt (fun i hi => (hpt i hi).1) fun i hi => (hpt i hi).2]
  · simp only [basisAtZero_eq_foldl_of_perm s.px (hinner _)]
    rw [exec_interp_of_distinctX hd, foldl_gadd_of_perm _ horder, interpolateAtZero]

end Sys2Proof.Safety
end

section
/-! SUPPORT. The family 60_exceptions.md: the two completions field by field, with which error a command ends, and what a step
refuses; and the proofs of that family's obligations. -/

namespace Sys2Proof.Safety

open Sys2Proof.Machine

/-! ## The two completions -/

theorem hostRead_status (s : State) : hostRead Off.status s = Status.visible s.status := rfl

/-- Settles O19. -/
theorem successfulCompletionWritesRAndStatus : Obligations.SuccessfulCompletionWritesRAndStatus := by
  refine ⟨fun v s => ⟨_, rfl, Status.busy_completed _, Status.done_completed _, Status.err_completed _,
    Status.ecode_completed _, Status.wovr_completed _⟩, fun v s hst => ?_, fun v s hst => ?_⟩
  · rw [hostRead_status, complete_status, hst]
    decide
  · rw [hostRead_status, complete_status, hst]
    decide

/-- Settles O20. -/
theorem errorCompletionWritesStatusOnly : Obligations.ErrorCompletionWritesStatusOnly := by
  refine ⟨fun e s => ⟨_, rfl, Status.busy_failed _ _, Status.done_failed _ _, Status.err_failed _ _,
    Status.ecode_failed _ _, Status.wovr_failed _ _⟩, rfl, rfl, fun s hst => ?_, fun s hst => ?_⟩
  · simp only [hostRead_status, raiseError_status, hst]
    decide
  · simp only [hostRead_status, raiseError_status, hst]
    decide

/-! ## With which error a command ends -/

/-- Settles O18. -/
theorem reservedOpcodesRaiseIllegal : Obligations.ReservedOpcodesRaiseIllegal := by
  have illegal (s : State) :
      (.next (raiseError .illegal s) : Host.Outcome State Fault Refusal) = .next (illegalIn s) := by
    rw [raiseError_illegal]
  exact ⟨fun _ => illegal, fun _ => illegal, fun _ => illegal, fun _ => illegal, fun _ => illegal,
    fun opc => (everyByteIsACommandOrIllegal opc).2⟩

/-- The two cases in which a command raises DIVZERO (60_exceptions.md R144). -/
def DividesByZero (i : Instr) (s : State) : Prop :=
  (i = .div ∧ s.b = 0x00#8) ∨ (i = .interp ∧ ¬ DistinctX s)

theorem DividesByZero.mem_namedCommands {i : Instr} {s : State} (h : DividesByZero i s) : i ∈ namedCommands := by
  rcases h with ⟨rfl, -⟩ | ⟨rfl, -⟩ <;> decide

/-- A command completes, raises DIVZERO in one of its two cases, or is a reserved one and raises ILLEGAL. -/
theorem exec_ends {i : Instr} {s t : State} (h : exec i s = .next t) :
    (i ∈ namedCommands ∧ ¬ DividesByZero i s ∧ ∃ v, t = complete v s) ∨
    (DividesByZero i s ∧ t = raiseError .divzero s) ∨
    (i ∉ namedCommands ∧ t = raiseError .illegal s) := by
  cases i with
  | nop | add | sub | mul | deg | eval =>
    exact .inl ⟨by decide, by simp [DividesByZero], _, (Host.Outcome.next.inj h).symm⟩
  | div =>
    rw [exec_div] at h
    split at h
    · next hb => exact .inr (.inl ⟨.inl ⟨rfl, hb⟩, (Host.Outcome.next.inj h).symm⟩)
    · next hb => exact .inl ⟨by decide, by simp [DividesByZero, hb], _, (Host.Outcome.next.inj h).symm⟩
  | interp =>
    rw [exec_interp] at h
    split at h
    · next hx =>
      have hd : ¬ DistinctX s := (repeatedX_iff_not_distinctX s).1 hx
      exact .inr (.inl ⟨.inr ⟨rfl, hd⟩, (Host.Outcome.next.inj h).symm⟩)
    · next hx =>
      have hd : DistinctX s := by rwa [repeatedX_iff_not_distinctX, not_not] at hx
      exact .inl ⟨by decide, by simp [DividesByZero, hd], _, (Host.Outcome.next.inj h).symm⟩
  | reserved08 | reserved10 | reserved20 | reserved40 | reserved80 =>
    exact .inr (.inr ⟨by simp [namedCommands], (Host.Outcome.next.inj h).symm⟩)

/-- ECODE after a command, by its cause. -/
theorem exec_ecode {i : Instr} {s t : State} (h : exec i s = .next t) :
    (Status.ecode t.status = 0#3 ↔ Status.done t.status = true) ∧
    (Status.ecode t.status = 1#3 ↔ i ∉ namedCommands) ∧
    (Status.ecode t.status = 2#3 ↔ DividesByZero i s) ∧
    (Status.ecode t.status).toNat ≤ 2 := by
  rcases exec_ends h with ⟨hi, hz, v, rfl⟩ | ⟨hz, rfl⟩ | ⟨hi, rfl⟩
  · simp [hi, hz]
  · simp [hz, hz.mem_namedCommands, errorBits]
  · have hz : ¬ DividesByZero i s := fun hz => hi hz.mem_namedCommands
    simp [hi, hz, errorBits]

/-- A byte is at least the pattern it equals under a mask. -/
theorem pattern_le_of_masked {opc mask pattern : Byte} (h : (opc &&& mask == pattern) = true) :
    pattern.toNat ≤ opc.toNat := by
  rw [← beq_iff_eq.1 h, BitVec.toNat_and]
  exact Nat.and_le_left

/-- The reserved commands are those with an opcode from 0x08 on (30_encoding.md R73). -/
theorem not_mem_namedCommands_iff {i : Instr} (hwf : i.wf = true) : i ∉ namedCommands ↔ 0x08 ≤ (encode i).toNat := by
  cases i with
  | nop | add | sub | mul | div | deg | eval | interp => decide
  | reserved08 | reserved10 | reserved20 | reserved40 | reserved80 =>
    exact iff_of_true (by simp [namedCommands]) (Nat.le_trans (by decide) (pattern_le_of_masked hwf))

/-- Settles O21: ECODE by how the command ends; acceptance and reset write the whole of STATUS. -/
theorem ecodeTellsHowTheCommandEnded : Obligations.EcodeTellsHowTheCommandEnded := by
  refine ⟨fun i s t h => ?_, fun i s t hwf h => ?_, fun _ _ => Status.ecode_accepted, fun _ => Status.ecode_zero⟩
  · obtain ⟨hdone, -, hzero, hle⟩ := exec_ecode h
    exact ⟨hdone, hzero, hle⟩
  · obtain ⟨-, hone, -, -⟩ := exec_ecode h
    exact hone.trans (not_mem_namedCommands_iff hwf)

/-! ## Refusals -/

theorem exec_total (i : Instr) (s : State) : ∃ t, exec i s = .next t := by
  rcases exec_cases i s with ⟨v, h⟩ | ⟨e, h⟩
  · exact ⟨_, h⟩
  · exact ⟨_, h⟩

/-- Every byte decodes, so the unit refuses none. -/
theorem unitTurn_ne_refused (s : State) (r : Refusal) : unitTurn s ≠ .refused r := by
  rw [unitTurn]
  split
  · simp
  · next opc _ =>
    obtain ⟨i, hi⟩ := decode_total opc
    obtain ⟨t, ht⟩ := exec_total i s
    simp [hi, ht]

theorem runStmt_ne_refused (st : Stmt) (s : State) (r : Refusal) : runStmt st s ≠ .refused r := by
  cases st with
  | wr | rd | label => simp [runStmt]
  | bnz t bit l =>
    rw [runStmt]
    split
    · split <;> simp
    · simp

theorem hostTurn_ne_refused (s : State) (r : Refusal) : hostTurn s ≠ .refused r := by
  rw [hostTurn]
  split
  · exact runStmt_ne_refused _ _ _
  · simp

theorem unscheduledTurn_ne_refused (s : State) (r : Refusal) : unscheduledTurn s ≠ .refused r := by
  rw [unscheduledTurn]
  split
  · exact unitTurn_ne_refused _ _
  · exact hostTurn_ne_refused _ _

/-- A step runs the soonest event of the schedule. -/
theorem step_scheduled {s : State} {e : Event} (h : s.events.head? = some e) : step s = runEvent e (popEvent s) := by
  obtain ⟨rest, hes⟩ := List.head?_eq_some_iff.1 h
  simp only [step, nextTurn, hes, popEvent, List.tail_cons]

theorem step_unscheduled {s : State} (h : s.events = []) : step s = unscheduledTurn s := by
  simp only [step, nextTurn, h]

/-- Only an event of 60_exceptions.md R159 is refused. -/
theorem step_refused {s : State} {r : Refusal} (h : step s = .refused r) :
    s.events.head? = some .wideAccess ∨ s.events.head? = some .unserialisedMaster ∨
      s.events.head? = some .undefinedReset := by
  cases he : s.events.head? with
  | none => exact absurd (step_unscheduled (List.head?_eq_none_iff.1 he) ▸ h) (unscheduledTurn_ne_refused s r)
  | some e =>
    rw [step_scheduled he] at h
    cases e with
    | hostMoves => exact absurd h (hostTurn_ne_refused _ _)
    | unitMoves => exact absurd h (unitTurn_ne_refused _ _)
    | reset => cases h
    | wideAccess => exact .inl rfl
    | unserialisedMaster => exact .inr (.inl rfl)
    | undefinedReset => exact .inr (.inr rfl)

/-- Settles O43. -/
theorem onlyTheThreeUndefinedSituationsAreRefused : Obligations.OnlyTheThreeUndefinedSituationsAreRefused :=
  ⟨fun _ => step_scheduled, fun _ => step_scheduled, fun _ => step_scheduled, fun _ _ => step_refused, exec_total⟩

end Sys2Proof.Safety
end

section
/-! SUPPORT. The family 70_reset_and_hazards.md: what the platform's reset leaves, and when WOVR can rise; and the proofs of that
family's obligations. -/

namespace Sys2Proof.Safety

open Sys2Proof.Machine

/-! ## Reset -/

/-- After a reset no entry is written, so each reads as the new draw (70_reset_and_hazards.md R161). -/
theorem readBuffer_resetBlock (s : State) (n : Nat) :
    readBuffer (resetBlock s) n = Config.resetBuf (resetBlock s).resets n := readBuffer_unwritten rfl

/-- After a reset a CMD write is accepted at once, whatever was pending before it. -/
theorem hostWrite_cmd_resetBlock (v : Byte) (s : State) :
    hostWrite Off.cmd v (resetBlock s) = accept v (resetBlock s) := hostWrite_cmd_idle v Status.busy_zero

/-- Settles O36: the event runs `resetBlock`, whatever the phase. -/
theorem resetEventAbandonsTheCommand : Obligations.ResetEventAbandonsTheCommand := by
  intro s h
  refine ⟨resetBlock (popEvent s), step_scheduled h, rfl, rfl, rfl, rfl, rfl, rfl, rfl, rfl, rfl,
    Nat.lt_succ_self _, fun i _ => ?_, fun v => hostWrite_cmd_resetBlock v _⟩
  exact ⟨readBuffer_resetBlock _ _, readBuffer_resetBlock _ _, readBuffer_resetBlock _ _⟩

/-! ## WOVR -/

/-- Only a write dropped while BUSY sets WOVR (10_state.md R29). -/
theorem hostWrite_sets_wovr {off : Offset} {v : Byte} {s : State} (hs : Status.wovr s.status = false)
    (ht : Status.wovr (hostWrite off v s).status = true) : Status.busy s.status = true := by
  rcases hostWrite_status_cases off v s with hw | ⟨hb, -⟩ | ⟨-, -, hw⟩
  · simp [hw, hs] at ht
  · exact hb
  · simp [hw] at ht

/-- A step sets WOVR only by a `wr` of the host while BUSY. -/
theorem step_sets_wovr {s t : State} (h : step s = .next t) (hs : Status.wovr s.status = false)
    (ht : Status.wovr t.status = true) :
    Status.busy s.status = true ∧ ∃ off src, nextStmt s = some (.wr off src) := by
  rcases step_cases h with ⟨-, rfl⟩ | ⟨-, opc, i, -, -, he⟩ | ⟨-, st, hst, hr⟩ | rfl
  · simp at ht
  · simp [exec_wovr he, hs] at ht
  · rcases runStmt_cases hr with ⟨off, src, rfl, rfl⟩ | ⟨off, x, -, rfl⟩ | ⟨pos, rfl⟩
    · exact ⟨hostWrite_sets_wovr (s := popEvent s) hs ht, off, src, hst⟩
    · simp [hs] at ht
    · simp [hs] at ht
  · simp [hs] at ht

/-- The host obeys 70_reset_and_hazards.md R166 in this state: while BUSY its next statement is no write. -/
def KeepsProtocol (s : State) : Prop :=
  Status.busy s.status = true → ∀ off src, nextStmt s ≠ some (.wr off src)

theorem step_keeps_wovr_clear {s t : State} (h : step s = .next t) (hk : KeepsProtocol s)
    (hs : Status.wovr s.status = false) : Status.wovr t.status = false := by
  by_contra ht
  obtain ⟨hb, off, src, hn⟩ := step_sets_wovr h hs (Bool.of_not_eq_false ht)
  exact hk hb off src hn

/-- Settles O42, by induction on the length of the run. -/
theorem protocolKeepersNeverSeeWovr : Obligations.ProtocolKeepersNeverSeeWovr := by
  intro k
  induction k with
  | zero => exact fun s t hs _ hr => Host.Outcome.next.inj hr ▸ hs
  | succ k ih =>
    intro s t hs hkeep hr
    obtain ⟨u, hsu, hut⟩ := run_succ_next hr
    have hkeep_s : KeepsProtocol s := hkeep 0 s k.succ_pos rfl
    have hkeep_u : ∀ j w, j < k → Host.Core.run core j u = .next w → KeepsProtocol w :=
      fun j w hj hw => hkeep (j + 1) w (Nat.succ_lt_succ hj) ((run_next hsu).trans hw)
    exact ih u t (step_keeps_wovr_clear hsu hkeep_s hs) hkeep_u hut

end Sys2Proof.Safety
end
